-- ==== Sys2Proof/Word.lean ====
section
/-! DEFINITION. The value widths of the CORE: every value is an unsigned integer of a stated width
(spec 00_scope.md R7, R8). -/

namespace Sys2Proof

/-- A register V[i], a byte of memory, a timer, the immediate `kk`: 8 bits. -/
abbrev Byte := BitVec 8

/-- I, PC, a return address, an instruction word, the fields of HALT_INFO: 16 bits. -/
abbrev Word := BitVec 16

/-- A register number, a key index, the row count `n`: 4 bits. -/
abbrev Nibble := BitVec 4

/-- The immediate `addr` (written NNN): 12 bits. -/
abbrev Addr := BitVec 12

end Sys2Proof
end

