-- ==== Sys2Proof/Config.lean ====
section
/-! DEFINITION. What is fixed for the machine: the implementation parameters of 00_scope.md R6, and the two
values the spec leaves open, which have no body (STEPS_PER_TIMER_TICK, and the bytes CXKK draws). -/

namespace Sys2Proof

/-- FONT_IMAGE, the 80 font bytes stored at reset, five bytes a glyph, digits 0 to F in order (10_state.md R33). -/
def Config.fontImage : List Byte :=
  [0xF0, 0x90, 0x90, 0x90, 0xF0] ++ [0x20, 0x60, 0x20, 0x20, 0x70] ++
  [0xF0, 0x10, 0xF0, 0x80, 0xF0] ++ [0xF0, 0x10, 0xF0, 0x10, 0xF0] ++
  [0x90, 0x90, 0xF0, 0x10, 0x10] ++ [0xF0, 0x80, 0xF0, 0x10, 0xF0] ++
  [0xF0, 0x80, 0xF0, 0x90, 0xF0] ++ [0xF0, 0x10, 0x20, 0x40, 0x40] ++
  [0xF0, 0x90, 0xF0, 0x90, 0xF0] ++ [0xF0, 0x90, 0xF0, 0x10, 0xF0] ++
  [0xF0, 0x90, 0xF0, 0x90, 0x90] ++ [0xE0, 0x90, 0xE0, 0x90, 0xE0] ++
  [0xF0, 0x80, 0x80, 0x80, 0xF0] ++ [0xE0, 0x90, 0x90, 0x90, 0xE0] ++
  [0xF0, 0x80, 0xF0, 0x80, 0xF0] ++ [0xF0, 0x80, 0xF0, 0x80, 0x80]

/-- `rand_byte` (R43, R132, D31): the byte that the k-th draw of CXKK reads is `Config.randByte k`. A FREE VALUE:
no body, so nothing can be proved of it (log entry 1). -/
opaque Config.randByte : Nat → Byte

/-- STEPS_PER_TIMER_TICK less one. OPEN (R6, R225, D2): no body (log entry 2). -/
opaque Config.extraStepsPerTick : Nat

/-- STEPS_PER_TIMER_TICK, an integer that is at least 1 (R6). -/
def Config.stepsPerTimerTick : Nat := Config.extraStepsPerTick + 1

/-- The parameters of R6, all of them. A field's default is the value this hardware takes. -/
structure Params where
  /-- STACK_DEPTH (R24, D27): the number of return-address slots. -/
  stackDepth : Nat := 16
  /-- STEPS_PER_TIMER_TICK (R225, D2): the steps of one timer tick in the pacer. -/
  stepsPerTimerTick : Nat := Config.stepsPerTimerTick
  /-- FONT_BASE (D4): the address of the glyph for digit 0. -/
  fontBase : Word := 0x000#16
  /-- FONT_IMAGE (R33, D4): the font bytes stored at reset. -/
  fontImage : List Byte := Config.fontImage
  /-- STRICT_DECODE (R75, D7): family 0x0 requires x = 0, families 0x5 and 0x9 require n = 0. -/
  strictDecode : Bool := false
  /-- SHIFT_USES_VY (R129, R131, D8): 8XY6 and 8XYE shift V[y]. -/
  shiftUsesVy : Bool := false
  /-- LOAD_STORE_INCREMENTS_I (R145, R146, D12): FX55 and FX65 leave I = I + x + 1. -/
  loadStoreIncrementsI : Bool := false
  deriving DecidableEq, Repr

/-- The parameters at the values of R6: this hardware. -/
def Config.params : Params := {}

end Sys2Proof
end

