-- ==== Sys2Proof/Syntax.lean ====
section
/-! DEFINITION. The 34 instructions, one constructor per row of spec/opcode_table.json (30_encoding.md R76, R85).
A field that the dispatch ignores (`ignored`: x of 0x0, n of 0x5 and 0x9, R75) is kept, because HALT_WORD reports the
whole fetched word (60_exceptions.md R202). -/

namespace Sys2Proof

inductive Instr where
  /-- `0(x)E0` CLS (R161). -/
  | cls (ignored : Nibble)
  /-- `0(x)EE` RET (R101). -/
  | ret (ignored : Nibble)
  /-- `1NNN` JP addr (R102). -/
  | jp (addr : Addr)
  /-- `2NNN` CALL addr (R103). -/
  | call (addr : Addr)
  /-- `3XKK` SE Vx, kk (R104). -/
  | seImm (x : Nibble) (kk : Byte)
  /-- `4XKK` SNE Vx, kk (R105). -/
  | sneImm (x : Nibble) (kk : Byte)
  /-- `5XY(n)` SE Vx, Vy (R106). -/
  | seReg (x y ignored : Nibble)
  /-- `6XKK` LD Vx, kk (R121). -/
  | ldImm (x : Nibble) (kk : Byte)
  /-- `7XKK` ADD Vx, kk (R122). -/
  | addImm (x : Nibble) (kk : Byte)
  /-- `8XY0` LD Vx, Vy (R123). -/
  | ldReg (x y : Nibble)
  /-- `8XY1` OR Vx, Vy (R124). -/
  | orReg (x y : Nibble)
  /-- `8XY2` AND Vx, Vy (R125). -/
  | andReg (x y : Nibble)
  /-- `8XY3` XOR Vx, Vy (R126). -/
  | xorReg (x y : Nibble)
  /-- `8XY4` ADD Vx, Vy (R127). -/
  | addReg (x y : Nibble)
  /-- `8XY5` SUB Vx, Vy (R128). -/
  | subReg (x y : Nibble)
  /-- `8XY6` SHR Vx {, Vy} (R129). -/
  | shr (x y : Nibble)
  /-- `8XY7` SUBN Vx, Vy (R130). -/
  | subnReg (x y : Nibble)
  /-- `8XYE` SHL Vx {, Vy} (R131). -/
  | shl (x y : Nibble)
  /-- `9XY(n)` SNE Vx, Vy (R107). -/
  | sneReg (x y ignored : Nibble)
  /-- `ANNN` LD I, addr (R141). -/
  | ldI (addr : Addr)
  /-- `BNNN` JP V0, addr (R108). -/
  | jpV0 (addr : Addr)
  /-- `CXKK` RND Vx, kk (R132). -/
  | rnd (x : Nibble) (kk : Byte)
  /-- `DXYN` DRW Vx, Vy, n (R162). -/
  | drw (x y n : Nibble)
  /-- `EX9E` SKP Vx (R171). -/
  | skp (x : Nibble)
  /-- `EXA1` SKNP Vx (R172). -/
  | sknp (x : Nibble)
  /-- `FX07` LD Vx, DT (R176). -/
  | ldVDt (x : Nibble)
  /-- `FX0A` LD Vx, K (R173). -/
  | ldVKey (x : Nibble)
  /-- `FX15` LD DT, Vx (R177). -/
  | ldDtV (x : Nibble)
  /-- `FX18` LD ST, Vx (R178). -/
  | ldStV (x : Nibble)
  /-- `FX1E` ADD I, Vx (R142). -/
  | addIV (x : Nibble)
  /-- `FX29` LD F, Vx (R143). -/
  | ldFV (x : Nibble)
  /-- `FX33` LD B, Vx (R144). -/
  | ldBV (x : Nibble)
  /-- `FX55` LD [I], Vx (R145). -/
  | ldMemV (x : Nibble)
  /-- `FX65` LD Vx, [I] (R146). -/
  | ldVMem (x : Nibble)
  deriving DecidableEq, Repr

end Sys2Proof
end

