-- ==== Sys2Proof/WellFormed.lean ====
section
/-! DEFINITION. Which instructions the decoder can produce. The widths of the fields are in their types, so the one
check left is that of STRICT_DECODE (30_encoding.md R75): under it an ignored field must be 0. -/

namespace Sys2Proof

/-- The ignored field of an instruction, 0 where it has none. -/
def Instr.ignoredField : Instr → Nibble
  | .cls g => g
  | .ret g => g
  | .seReg _ _ g => g
  | .sneReg _ _ g => g
  | .jp _ | .call _ | .seImm _ _ | .sneImm _ _ | .ldImm _ _ | .addImm _ _ | .ldReg _ _ | .orReg _ _
  | .andReg _ _ | .xorReg _ _ | .addReg _ _ | .subReg _ _ | .shr _ _ | .subnReg _ _ | .shl _ _
  | .ldI _ | .jpV0 _ | .rnd _ _ | .drw _ _ _ | .skp _ | .sknp _ | .ldVDt _ | .ldVKey _ | .ldDtV _
  | .ldStV _ | .addIV _ | .ldFV _ | .ldBV _ | .ldMemV _ | .ldVMem _ => 0

/-- Well-formed under a setting of STRICT_DECODE (R75): strict decoding admits no non-zero ignored field. -/
def Instr.wellFormedIn (strict : Bool) (i : Instr) : Bool := !strict || i.ignoredField == 0

/-- Well-formed on this hardware, with STRICT_DECODE as R6 sets it. -/
def Instr.wellFormed (i : Instr) : Bool := i.wellFormedIn Config.params.strictDecode

end Sys2Proof
end

