-- ==== Sys2Proof/Decode.lean ====
section
/-! DEFINITION. The decoder, total on any bytes, and the encoder after it (30_encoding.md R70 to R81, R86). -/

namespace Sys2Proof

/-! ### Fields (R72) -/

/-- The opcode family, w[15:12]. -/
def fieldOp (w : Word) : Nibble := w.extractLsb' 12 4
/-- `x`, w[11:8]. -/
def fieldX (w : Word) : Nibble := w.extractLsb' 8 4
/-- `y`, w[7:4]. -/
def fieldY (w : Word) : Nibble := w.extractLsb' 4 4
/-- `n`, w[3:0]. The source's example gives 0x8 for 0x8CD1; the field definition wins (R86, C3). -/
def fieldN (w : Word) : Nibble := w.extractLsb' 0 4
/-- `kk`, w[7:0]. -/
def fieldKk (w : Word) : Byte := w.extractLsb' 0 8
/-- `addr`, w[11:0]. -/
def fieldAddr (w : Word) : Addr := w.extractLsb' 0 12

/-! ### Dispatch (R75, R76) -/

/-- Family 0x0, selected by `kk`; `x` must be 0 when strict (R75). Every other 0NNN word is unknown (R77, R79). -/
def decodeFamily0 (strict : Bool) (w : Word) : Option Instr :=
  if strict && fieldX w != 0 then none
  else if fieldKk w = 0xE0 then some (.cls (fieldX w))
  else if fieldKk w = 0xEE then some (.ret (fieldX w))
  else none

/-- Family 0x8, selected by `n` (R75). -/
def decodeFamily8 (w : Word) : Option Instr :=
  match fieldN w with
  | 0x0#4 => some (.ldReg (fieldX w) (fieldY w))
  | 0x1#4 => some (.orReg (fieldX w) (fieldY w))
  | 0x2#4 => some (.andReg (fieldX w) (fieldY w))
  | 0x3#4 => some (.xorReg (fieldX w) (fieldY w))
  | 0x4#4 => some (.addReg (fieldX w) (fieldY w))
  | 0x5#4 => some (.subReg (fieldX w) (fieldY w))
  | 0x6#4 => some (.shr (fieldX w) (fieldY w))
  | 0x7#4 => some (.subnReg (fieldX w) (fieldY w))
  | 0xE#4 => some (.shl (fieldX w) (fieldY w))
  | _ => none

/-- Family 0xE, selected by `kk` (R75). -/
def decodeFamilyE (w : Word) : Option Instr :=
  if fieldKk w = 0x9E then some (.skp (fieldX w))
  else if fieldKk w = 0xA1 then some (.sknp (fieldX w))
  else none

/-- Family 0xF, selected by `kk` (R75). -/
def decodeFamilyF (w : Word) : Option Instr :=
  match fieldKk w with
  | 0x07#8 => some (.ldVDt (fieldX w))
  | 0x0A#8 => some (.ldVKey (fieldX w))
  | 0x15#8 => some (.ldDtV (fieldX w))
  | 0x18#8 => some (.ldStV (fieldX w))
  | 0x1E#8 => some (.addIV (fieldX w))
  | 0x29#8 => some (.ldFV (fieldX w))
  | 0x33#8 => some (.ldBV (fieldX w))
  | 0x55#8 => some (.ldMemV (fieldX w))
  | 0x65#8 => some (.ldVMem (fieldX w))
  | _ => none

/-- The decoder of one instruction word under a setting of STRICT_DECODE (R75, R76); `none` is an unknown word (R77). -/
def decodeWordIn (strict : Bool) (w : Word) : Option Instr :=
  match fieldOp w with
  | 0x0#4 => decodeFamily0 strict w
  | 0x1#4 => some (.jp (fieldAddr w))
  | 0x2#4 => some (.call (fieldAddr w))
  | 0x3#4 => some (.seImm (fieldX w) (fieldKk w))
  | 0x4#4 => some (.sneImm (fieldX w) (fieldKk w))
  | 0x5#4 => if strict && fieldN w != 0 then none else some (.seReg (fieldX w) (fieldY w) (fieldN w))
  | 0x6#4 => some (.ldImm (fieldX w) (fieldKk w))
  | 0x7#4 => some (.addImm (fieldX w) (fieldKk w))
  | 0x8#4 => decodeFamily8 w
  | 0x9#4 => if strict && fieldN w != 0 then none else some (.sneReg (fieldX w) (fieldY w) (fieldN w))
  | 0xA#4 => some (.ldI (fieldAddr w))
  | 0xB#4 => some (.jpV0 (fieldAddr w))
  | 0xC#4 => some (.rnd (fieldX w) (fieldKk w))
  | 0xD#4 => some (.drw (fieldX w) (fieldY w) (fieldN w))
  | 0xE#4 => decodeFamilyE w
  | _ => decodeFamilyF w  -- 0xF, the one family left

/-- The decoder of this hardware: STRICT_DECODE as R6 sets it. -/
def decodeWord (w : Word) : Option Instr := decodeWordIn Config.params.strictDecode w

/-- The instruction word at the front of a byte sequence, big-endian (R70): the first byte is w[15:8]. -/
def joinWord (hi lo : Byte) : Word := hi ++ lo

/-- Why bytes are no instruction. -/
inductive DecodeError where
  /-- Fewer than two bytes: an instruction is exactly 2 bytes (R80). -/
  | truncated
  /-- The word matches no row of R76 (R77). -/
  | unknownOpcode (w : Word)
  deriving DecidableEq, Repr

/-- The decoder on any bytes: the instruction and the bytes after it, or the reason for refusing, by name. -/
def decodeBytes : List Byte → Except DecodeError (Instr × List Byte)
  | hi :: lo :: rest =>
    match decodeWord (joinWord hi lo) with
    | some i => .ok (i, rest)
    | none => .error (.unknownOpcode (joinWord hi lo))
  | _ => .error .truncated

/-! ### The encoder (R76) -/

/-- A word from four nibbles, the family first. -/
def pack4 (a b c d : Nibble) : Word := a ++ b ++ c ++ d
/-- A word from the family, `x` and `kk`. -/
def packXKk (op x : Nibble) (kk : Byte) : Word := op ++ x ++ kk
/-- A word from the family and `addr`. -/
def packAddr (op : Nibble) (a : Addr) : Word := op ++ a

/-- The word of an instruction, from the patterns of R76. An ignored field is written back as it was read. -/
def encode : Instr → Word
  | .cls g => packXKk 0x0 g 0xE0
  | .ret g => packXKk 0x0 g 0xEE
  | .jp a => packAddr 0x1 a
  | .call a => packAddr 0x2 a
  | .seImm x kk => packXKk 0x3 x kk
  | .sneImm x kk => packXKk 0x4 x kk
  | .seReg x y g => pack4 0x5 x y g
  | .ldImm x kk => packXKk 0x6 x kk
  | .addImm x kk => packXKk 0x7 x kk
  | .ldReg x y => pack4 0x8 x y 0x0
  | .orReg x y => pack4 0x8 x y 0x1
  | .andReg x y => pack4 0x8 x y 0x2
  | .xorReg x y => pack4 0x8 x y 0x3
  | .addReg x y => pack4 0x8 x y 0x4
  | .subReg x y => pack4 0x8 x y 0x5
  | .shr x y => pack4 0x8 x y 0x6
  | .subnReg x y => pack4 0x8 x y 0x7
  | .shl x y => pack4 0x8 x y 0xE
  | .sneReg x y g => pack4 0x9 x y g
  | .ldI a => packAddr 0xA a
  | .jpV0 a => packAddr 0xB a
  | .rnd x kk => packXKk 0xC x kk
  | .drw x y n => pack4 0xD x y n
  | .skp x => packXKk 0xE x 0x9E
  | .sknp x => packXKk 0xE x 0xA1
  | .ldVDt x => packXKk 0xF x 0x07
  | .ldVKey x => packXKk 0xF x 0x0A
  | .ldDtV x => packXKk 0xF x 0x15
  | .ldStV x => packXKk 0xF x 0x18
  | .addIV x => packXKk 0xF x 0x1E
  | .ldFV x => packXKk 0xF x 0x29
  | .ldBV x => packXKk 0xF x 0x33
  | .ldMemV x => packXKk 0xF x 0x55
  | .ldVMem x => packXKk 0xF x 0x65

/-- The two bytes of a word as memory holds them, w[15:8] at the lower address (R54, R70). -/
def wordBytes (w : Word) : List Byte := [w.extractLsb' 8 8, w.extractLsb' 0 8]

/-- The bytes of an instruction in memory order. -/
def encodeBytes (i : Instr) : List Byte := wordBytes (encode i)

/-- The word of which spec/opcode_table.json gives the low `nbits` bits, every bit above them 0. -/
def tableWord (nbits w : Nat) : Word := BitVec.ofNat 16 (w % 2 ^ nbits)

/-- The instruction the decoder reads from a word numbered as spec/opcode_table.json numbers it. -/
def decodeTableWord (nbits w : Nat) : Option Instr :=
  match decodeBytes (wordBytes (tableWord nbits w)) with
  | .ok (i, _) => some i
  | .error _ => none

end Sys2Proof
end

