-- ==== Sys2Proof/Machine/State.lean ====
section
/-! DEFINITION. The state of the CORE, all of it (10_state.md R37), with the pacer's two values (R34) and the model's
own draw counter. Plain data. -/

namespace Sys2Proof.Machine

/-- The register file V0 to VF (R20). -/
abbrev Regs := Vector Byte 16
/-- The return-address slots, slot 0 first: STACK_DEPTH of them, a parameter (R6, R24; log entry 7). -/
abbrev Stack := List Word
/-- DISP[r][c]: 32 rows of 64 one-bit pixels, `true` for 1 (R27). -/
abbrev Display := Vector (Vector Bool 64) 32
/-- KEY[0] to KEY[0xF], the key-down flags (R28). -/
abbrev Keypad := Vector Bool 16
/-- MEM (R29): the bytes that differ from their reset contents, by rising address. -/
abbrev Memory := List Host.Cell

/-- RUN.MODE (R30). The reserved value 3, which no rule produces, is left out (K1-18). -/
inductive RunMode where
  /-- A step runs one instruction. -/
  | running
  /-- FX0A is waiting for a key_down event (R173). -/
  | waitKey
  /-- A fatal error has ended the run (R202, R203). -/
  | halted
  deriving DecidableEq, Repr

/-- RUN.HALT_CAUSE (R30, R200). The reserved values 5 to 7, which no rule produces, are left out (K1-19). -/
inductive HaltCause where
  /-- Not halted. -/
  | none
  /-- The fetched word matches no instruction (R77). -/
  | unknownOpcode
  /-- CALL with all slots in use (R103). -/
  | stackOverflow
  /-- RET with no slot in use (R101). -/
  | stackUnderflow
  /-- A fetch or data address above 0xFFF, or a key index above 0xF (R71, R140, R170). -/
  | outOfBoundsAccess
  deriving DecidableEq, Repr

/-- The run-state register RUN (R30). -/
structure Run where
  /-- RUN.MODE. -/
  mode : RunMode
  /-- RUN.WAIT_REG: the x of the FX0A being waited on. -/
  waitReg : Nibble
  /-- RUN.HALT_CAUSE. -/
  haltCause : HaltCause
  deriving DecidableEq, Repr

/-- The halt-information register HALT_INFO (R31). -/
structure HaltInfo where
  /-- HALT_PC: the PC of the instruction that faulted. -/
  pc : Word
  /-- HALT_WORD: the fetched word, 0 when the fetch itself faulted. -/
  word : Word
  /-- HALT_ADDR: the first out-of-range address or key index, otherwise 0. -/
  addr : Word
  deriving DecidableEq, Repr

/-- The Advance pacer's state (R34). -/
structure Pacer where
  /-- ACC: elapsed seconds not yet consumed by a whole step period, an exact rational. -/
  acc : Rat
  /-- STEP_COUNT: the steps since the last timer tick. -/
  stepCount : Nat
  deriving DecidableEq, Repr

structure State where
  /-- V[0] to V[0xF] (R20); V[0xF] is also the flag (R21). -/
  v : Regs
  /-- The index register I (R22). -/
  i : Word
  /-- The program counter PC (R23). -/
  pc : Word
  /-- SP (R24): the number of occupied slots, 0 to STACK_DEPTH (log entry 7). -/
  sp : Nat
  /-- STACK (R24). -/
  stack : Stack
  /-- The delay timer DT (R25). -/
  dt : Byte
  /-- The sound timer ST (R26). -/
  st : Byte
  /-- MEM (R29). -/
  mem : Memory
  /-- DISP (R27). -/
  disp : Display
  /-- KEY (R28). -/
  key : Keypad
  /-- RUN (R30). -/
  run : Run
  /-- HALT_INFO (R31). -/
  haltInfo : HaltInfo
  /-- LOADED (R32). -/
  loaded : Bool
  /-- ACC and STEP_COUNT (R34). -/
  pacer : Pacer
  /-- The model's own: how many bytes CXKK has drawn. It only names the next free value (log entry 1). -/
  draws : Nat
  deriving DecidableEq, Repr

/-- Why the machine stops with a fault. It never does: the spec gives every event an effect in every state, a fatal
error among them (it is a next state, the Halted one, R202), so the type has no constructor. -/
inductive Fault where
  deriving DecidableEq, Repr

/-- Why an instruction has no meaning in the model. -/
inductive Refusal where
  /-- Raised by an arm of `exec` whose instruction has no meaning yet. Safe: the model stops where the hardware goes
  on. No arm raises it now. -/
  | notModelled (mnemonic : String)
  deriving DecidableEq, Repr

/-- What a step or an instruction answers. -/
abbrev Result := Host.Outcome State Fault Refusal

/-- The machine right after reset, which is construction (70_reset_and_hazards.md R220). Memory lists nothing: an
unlisted byte reads as its reset content. `draws` is the model's own (log entry 1). -/
def State.reset : State where
  v := Vector.replicate 16 0
  i := 0
  pc := 0x200
  sp := 0
  stack := List.replicate Config.params.stackDepth 0
  dt := 0
  st := 0
  mem := []
  disp := Vector.replicate 32 (Vector.replicate 64 false)
  key := Vector.replicate 16 false
  run := { mode := .running, waitReg := 0, haltCause := .none }
  haltInfo := { pc := 0, word := 0, addr := 0 }
  loaded := false
  pacer := { acc := 0, stepCount := 0 }
  draws := 0

end Sys2Proof.Machine
end

