-- ==== Sys2Proof/Machine/Memory.lean ====
section
/-! DEFINITION. MEM: one space of 4096 bytes at addresses 0x000 to 0xFFF (20_memory.md R50), kept as the bytes that
differ from their reset contents, in one canonical form. -/

namespace Sys2Proof.Machine

/-- The number of addresses of MEM (R50). -/
def memSize : Nat := 4096

/-- The reset content of a byte: the font image from FONT_BASE on, 0 elsewhere (R29, R33). This is what an address
that memory does not list reads as. -/
def resetByte (a : Nat) : Byte :=
  if Config.params.fontBase.toNat ≤ a then Config.fontImage.getD (a - Config.params.fontBase.toNat) 0 else 0

/-- The byte listed at an address, if any. -/
def lookup : Memory → Nat → Option Byte
  | [], _ => none
  | (b, v) :: rest, a => if b = a then some v else lookup rest a

/-- `MemRead(a, 1)` (R9): the value last written to the byte, or its reset content (R56). -/
def memRead (m : Memory) (a : Nat) : Byte := (lookup m a).getD (resetByte a)

/-- List a byte at an address, in order, in place of the one listed there. -/
def insertCell (a : Nat) (v : Byte) : Memory → Memory
  | [] => [(a, v)]
  | (b, u) :: rest =>
    if a < b then (a, v) :: (b, u) :: rest
    else if a = b then (a, v) :: rest
    else (b, u) :: insertCell a v rest

/-- List nothing at an address. -/
def eraseCell (a : Nat) : Memory → Memory
  | [] => []
  | (b, u) :: rest => if a = b then rest else (b, u) :: eraseCell a rest

/-- `MemWrite(a, 1, v)` (R9). Writing the reset content unlists the address, so that equal memories are equal data. -/
def memWrite (m : Memory) (a : Nat) (v : Byte) : Memory :=
  if v = resetByte a then eraseCell a m else insertCell a v m

/-- Bytes written to consecutive addresses, the first at `base`. -/
def writeBlock (m : Memory) (base : Nat) : List Byte → Memory
  | [] => m
  | b :: rest => writeBlock (memWrite m base b) (base + 1) rest

/-- The `n` bytes from `base` on, the lowest address first. -/
def readBlock (m : Memory) (base n : Nat) : List Byte := (List.range n).map fun k => memRead m (base + k)

/-- Addresses strictly rising from `low` on, below 4096, and no byte listed that equals its reset content. -/
def canonicalFrom (low : Nat) : Memory → Bool
  | [] => true
  | (a, v) :: rest => decide (low ≤ a) && decide (a < memSize) && v != resetByte a && canonicalFrom (a + 1) rest

/-- The canonical form of memory. -/
def Memory.wf (m : Memory) : Bool := canonicalFrom 0 m

end Sys2Proof.Machine
end

