-- ==== Sys2Proof/Machine/Ops.lean ====
section
/-! DEFINITION. The named operations over the registers, the program counter, the stack and memory, and the one
exception entry: raising a fatal error (00_scope.md R9, R10; 60_exceptions.md R201, R202). -/

namespace Sys2Proof.Machine

/-! ### Registers (R9, R20, R74) -/

/-- Register `x` of a register file. -/
def regGet (v : Regs) (x : Nibble) : Byte := v[x.toNat]'x.isLt
/-- A register file with `x` set. No register is hardwired (R20). -/
def regSet (v : Regs) (x : Nibble) (b : Byte) : Regs := v.set x.toNat b x.isLt

/-- `V[x]` read. -/
def State.readV (s : State) (x : Nibble) : Byte := regGet s.v x
/-- `V[x] <- b`. -/
def State.writeV (s : State) (x : Nibble) (b : Byte) : State := { s with v := regSet s.v x b }
/-- `KEY[k]` read. -/
def State.readKey (s : State) (k : Nibble) : Bool := s.key[k.toNat]'k.isLt
/-- `KEY[k] <- b`. -/
def State.writeKey (s : State) (k : Nibble) (b : Bool) : State := { s with key := s.key.set k.toNat b k.isLt }
/-- `MemRead(a, 1)`. -/
def State.readMem (s : State) (a : Nat) : Byte := memRead s.mem a
/-- `I <- w`. -/
def State.setI (s : State) (w : Word) : State := { s with i := w }

/-! ### Program counter (R23) -/

/-- `PC <- target`. -/
def State.setPc (s : State) (w : Word) : State := { s with pc := w }
/-- `PC <- PC + 2`: every instruction that does not jump, skip or wait. -/
def State.advancePc (s : State) : State := { s with pc := s.pc + 2 }
/-- `PC <- PC + 4` where the condition holds, `PC <- PC + 2` where it does not (R100). -/
def State.skipIf (s : State) (c : Bool) : State := { s with pc := if c then s.pc + 4 else s.pc + 2 }

/-! ### The exception entry (R202) -/

/-- `raise Fatal(cause, pc=p, word=w, addr=a)`: the engine halts, RUN and HALT_INFO are written and nothing else
(R201, R202). There is no handler to go to and no return (R203, R207). -/
def State.raiseFatal (s : State) (cause : HaltCause) (p w a : Word) : State :=
  { s with
    run := { mode := .halted, waitReg := 0, haltCause := cause }
    haltInfo := { pc := p, word := w, addr := a } }

/-! ### Memory ranges (R52, R140) -/

/-- `check_range(base, k)` over the bytes `base` to `base + k`, with no wrap: where one is above 0xFFF, the lowest
such address. -/
def rangeFault (base : Word) (k : Nat) : Option Word :=
  if base.toNat + k > 0xFFF then some (if base.toNat > 0xFFF then base else 0x1000) else none

/-- The check of an instruction's memory range before it does anything (R52): OutOfBoundsAccess with the instruction's
word and the lowest address out of bounds, or the instruction's effect. -/
def State.checked (s : State) (fault : Option Word) (i : Instr) (effect : State) : State :=
  match fault with
  | some a => s.raiseFatal .outOfBoundsAccess s.pc (encode i) a
  | none => effect

/-! ### Stack (R24) -/

/-- `STACK[j]` read (R9). -/
def State.slot (s : State) (j : Nat) : Word := s.stack.getD j 0

/-- push(w) on a stack of `depth` slots, or StackOverflow where every slot is in use; `i` is the instruction that
pushes. -/
def State.push (s : State) (depth : Nat) (w : Word) (i : Instr) (after : State → State) : State :=
  if s.sp = depth then s.raiseFatal .stackOverflow s.pc (encode i) 0
  else after { s with stack := s.stack.set s.sp w, sp := s.sp + 1 }

/-- pop(), or StackUnderflow where no slot is in use; the popped slot keeps its value. -/
def State.pop (s : State) (i : Instr) (after : Word → State → State) : State :=
  match s.sp with
  | 0 => s.raiseFatal .stackUnderflow s.pc (encode i) 0
  | n + 1 => after (s.slot n) { s with sp := n }

end Sys2Proof.Machine
end

