-- ==== Sys2Proof/Machine/Operands.lean ====
section
/-! DEFINITION. The operand forms (30_encoding.md R73, R74): immediates, the shift operand, the key index, the
register block of FX55 and FX65, the font address, the decimal digits. -/

namespace Sys2Proof.Machine

/-- `zext_16(addr)`: a jump target or an index value (R73). -/
def addrOperand (a : Addr) : Word := a.setWidth 16

/-- `zext_16` of a byte (R8). -/
def zextByte (b : Byte) : Word := b.setWidth 16

/-- The operand of 8XY6 and 8XYE: V[y] when SHIFT_USES_VY, else V[x] (R129, R131). -/
def shiftOperand (usesVy : Bool) (s : State) (x y : Nibble) : Byte := if usesVy then s.readV y else s.readV x

/-- The key that V[x] names; a value above 0xF names none (R170). -/
def keyIndex (b : Byte) : Option Nibble := if b.toNat > 0xF then none else some (b.setWidth 4)

/-- The bytes V[0] to V[x] (R145). -/
def blockOut (v : Regs) (x : Nibble) : List Byte := v.toList.take (x.toNat + 1)

/-- A register file with V[k], V[k+1], … replaced by the bytes, V[0xF] the last that can be (R146). -/
def blockInFrom (v : Regs) (k : Nat) : List Byte → Regs
  | [] => v
  | b :: rest => blockInFrom (v.setIfInBounds k b) (k + 1) rest

/-- A register file with V[0], V[1], … replaced by the bytes (R146). -/
def blockIn (v : Regs) (bytes : List Byte) : Regs := blockInFrom v 0 bytes

/-- I after FX55 and FX65: unchanged, or I + x + 1 when LOAD_STORE_INCREMENTS_I (R145, R146). -/
def indexAfterBlock (increments : Bool) (i : Word) (x : Nibble) : Word :=
  if increments then i + x.setWidth 16 + 1 else i

/-- The address of the glyph for the digit V[x][3:0] (R143). -/
def glyphAddress (base : Word) (b : Byte) : Word := base + 5 * (b.extractLsb' 0 4).setWidth 16

/-- The decimal digits of a byte, one a byte, hundreds first (R144, D13). -/
def decimalDigits (b : Byte) : List Byte := [b / 100, b / 10 % 10, b % 10]

end Sys2Proof.Machine
end

