-- ==== Sys2Proof/Machine/Flags.lean ====
section
/-! DEFINITION. VF, the one flag: carry, not-borrow, the bit shifted out, collision (10_state.md R21, 41_alu.md R120). -/

namespace Sys2Proof.Machine

/-- A flag as VF holds it: 1 or 0. -/
def flagByte (b : Bool) : Byte := if b then 1 else 0

/-- The carry out of an 8-bit sum (R127). -/
def carryOut (a b : Byte) : Bool := a.toNat + b.toNat > 255

/-- No borrow in `a - b`, equality included (R128, R130, D9). -/
def notBorrow (a b : Byte) : Bool := a.toNat ≥ b.toNat

/-- The bit a right shift by one puts out, bit 0 (R129). -/
def outRight (b : Byte) : Bool := b.getLsbD 0

/-- The bit a left shift by one puts out, bit 7 (R131). -/
def outLeft (b : Byte) : Bool := b.getLsbD 7

/-- `V[0xF] <- flag`. -/
def State.setFlag (s : State) (b : Bool) : State := s.writeV 0xF (flagByte b)

/-- A result to V[x] first and its flag to VF second, so that with x = 0xF the flag is left (R120, D10). -/
def State.writeFlagged (s : State) (x : Nibble) (result : Byte) (flag : Bool) : State :=
  (s.writeV x result).setFlag flag

end Sys2Proof.Machine
end

