-- ==== Sys2Proof/Machine/Alu.lean ====
section
/-! DEFINITION. Register load, arithmetic, logic, shifts and random (41_alu.md R120 to R132). -/

namespace Sys2Proof.Machine

/-- LD Vx, kk (R121). -/
def execLdImm (x : Nibble) (kk : Byte) (s : State) : Result := .next (s.writeV x kk).advancePc

/-- ADD Vx, kk (R122): VF is no carry here. -/
def execAddImm (x : Nibble) (kk : Byte) (s : State) : Result := .next (s.writeV x (s.readV x + kk)).advancePc

/-- LD Vx, Vy (R123). -/
def execLdReg (x y : Nibble) (s : State) : Result := .next (s.writeV x (s.readV y)).advancePc

/-- OR Vx, Vy (R124). -/
def execOrReg (x y : Nibble) (s : State) : Result := .next (s.writeV x (s.readV x ||| s.readV y)).advancePc

/-- AND Vx, Vy (R125). -/
def execAndReg (x y : Nibble) (s : State) : Result := .next (s.writeV x (s.readV x &&& s.readV y)).advancePc

/-- XOR Vx, Vy (R126). -/
def execXorReg (x y : Nibble) (s : State) : Result := .next (s.writeV x (s.readV x ^^^ s.readV y)).advancePc

/-- ADD Vx, Vy (R127). -/
def execAddReg (x y : Nibble) (s : State) : Result :=
  .next (s.writeFlagged x (s.readV x + s.readV y) (carryOut (s.readV x) (s.readV y))).advancePc

/-- SUB Vx, Vy (R128). -/
def execSubReg (x y : Nibble) (s : State) : Result :=
  .next (s.writeFlagged x (s.readV x - s.readV y) (notBorrow (s.readV x) (s.readV y))).advancePc

/-- SUBN Vx, Vy (R130). -/
def execSubnReg (x y : Nibble) (s : State) : Result :=
  .next (s.writeFlagged x (s.readV y - s.readV x) (notBorrow (s.readV y) (s.readV x))).advancePc

/-- SHR under a setting of SHIFT_USES_VY (R129). -/
def execShrWith (usesVy : Bool) (x y : Nibble) (s : State) : Result :=
  let b := shiftOperand usesVy s x y
  .next (s.writeFlagged x (b >>> 1) (outRight b)).advancePc

/-- SHR Vx, Vy (R129). -/
def execShr (x y : Nibble) (s : State) : Result := execShrWith Config.params.shiftUsesVy x y s

/-- SHL under a setting of SHIFT_USES_VY (R131). -/
def execShlWith (usesVy : Bool) (x y : Nibble) (s : State) : Result :=
  let b := shiftOperand usesVy s x y
  .next (s.writeFlagged x (b <<< 1) (outLeft b)).advancePc

/-- SHL Vx, Vy (R131). -/
def execShl (x y : Nibble) (s : State) : Result := execShlWith Config.params.shiftUsesVy x y s

/-- RND when the input `rand_byte` is `r` (R132). -/
def randomInto (r : Byte) (x : Nibble) (kk : Byte) (s : State) : State := (s.writeV x (r &&& kk)).advancePc

/-- RND Vx, kk (R132): the draw is a free value, and the counter names the next one (R43, log entry 1). -/
def execRnd (x : Nibble) (kk : Byte) (s : State) : Result :=
  .next (randomInto (Config.randByte s.draws) x kk { s with draws := s.draws + 1 })

end Sys2Proof.Machine
end

