-- ==== Sys2Proof/Machine/ControlTransfer.lean ====
section
/-! DEFINITION. Jump, call, return and the register and immediate skips (40_control_transfer.md R100 to R108). -/

namespace Sys2Proof.Machine

/-- RET (R101). The popped value is the address after the call, so 2 is not added. -/
def execRet (ignored : Nibble) (s : State) : Result :=
  .next (s.pop (.ret ignored) fun target t => t.setPc target)

/-- JP addr (R102). -/
def execJp (a : Addr) (s : State) : Result := .next (s.setPc (addrOperand a))

/-- CALL on a stack of STACK_DEPTH slots (R103). -/
def execCallWith (depth : Nat) (a : Addr) (s : State) : Result :=
  .next (s.push depth (s.pc + 2) (.call a) fun t => t.setPc (addrOperand a))

/-- CALL addr (R103). -/
def execCall (a : Addr) (s : State) : Result := execCallWith Config.params.stackDepth a s

/-- SE Vx, kk (R104). -/
def execSeImm (x : Nibble) (kk : Byte) (s : State) : Result := .next (s.skipIf (s.readV x == kk))

/-- SNE Vx, kk (R105). -/
def execSneImm (x : Nibble) (kk : Byte) (s : State) : Result := .next (s.skipIf (s.readV x != kk))

/-- SE Vx, Vy (R106). -/
def execSeReg (x y : Nibble) (s : State) : Result := .next (s.skipIf (s.readV x == s.readV y))

/-- SNE Vx, Vy (R107). -/
def execSneReg (x y : Nibble) (s : State) : Result := .next (s.skipIf (s.readV x != s.readV y))

/-- JP V0, addr (R108): always V0, the sum not truncated to 12 bits. -/
def execJpV0 (a : Addr) (s : State) : Result := .next (s.setPc (addrOperand a + zextByte (s.readV 0)))

end Sys2Proof.Machine
end

