-- ==== Sys2Proof/Machine/DisplayDraw.lean ====
section
/-! DEFINITION. The display buffer, CLS, and the XOR sprite rasterizer of DRW (43_display.md R160 to R165). -/

namespace Sys2Proof.Machine

/-- `DISP[r][c]`. -/
def pixel (d : Display) (r : Fin 32) (c : Fin 64) : Bool := (d[r.val]'r.isLt)[c.val]'c.isLt

/-- `DISP[r][c] <- b`. -/
def setPixel (d : Display) (r : Fin 32) (c : Fin 64) (b : Bool) : Display :=
  d.set r.val ((d[r.val]'r.isLt).set c.val b c.isLt) r.isLt

/-- Every pixel 0 (R161). -/
def blankDisplay : Display := Vector.replicate 32 (Vector.replicate 64 false)

/-- The display row on which row `r` of a sprite at `y0` lands: modulo 32 (R160). -/
def wrapRow (y0 r : Nat) : Fin 32 := ⟨(y0 + r) % 32, Nat.mod_lt _ (by decide)⟩

/-- The display column on which column offset `c` of a sprite at `x0` lands: modulo 64 (R160, C1). -/
def wrapCol (x0 c : Nat) : Fin 64 := ⟨(x0 + c) % 64, Nat.mod_lt _ (by decide)⟩

/-- A drawing in progress: the display, and whether a set pixel was turned off. -/
structure Raster where
  disp : Display
  collide : Bool
  deriving DecidableEq, Repr

/-- One sprite bit on one pixel: 0 leaves it, 1 flips it and collides where it was set (R160, R162). -/
def drawBit (a : Raster) (r : Fin 32) (c : Fin 64) (bit : Bool) : Raster :=
  if bit then
    { disp := setPixel a.disp r c (!pixel a.disp r c), collide := a.collide || pixel a.disp r c }
  else a

/-- Column offsets `c` of one sprite byte, in the order listed; bit 7 is the leftmost (R160, D16). -/
def drawCols (x0 : Nat) (row : Fin 32) (byte : Byte) (a : Raster) : List Nat → Raster
  | [] => a
  | c :: rest => drawCols x0 row byte (drawBit a row (wrapCol x0 c) (byte.getLsbD (7 - c))) rest

/-- The sprite rows from number `r` on, one byte a row (R162). -/
def drawRows (x0 y0 r : Nat) (a : Raster) : List Byte → Raster
  | [] => a
  | byte :: rest => drawRows x0 y0 (r + 1) (drawCols x0 (wrapRow y0 r) byte a (List.range 8)) rest

/-- A whole sprite at the coordinates that V[x] and V[y] give, modulo 64 and 32 (R162). -/
def drawSprite (d : Display) (vx vy : Byte) (rows : List Byte) : Raster :=
  drawRows (vx.toNat % 64) (vy.toNat % 32) 0 { disp := d, collide := false } rows

/-- The range check of DRW: the bytes I to I + n - 1, none when n = 0 (R162). -/
def spriteFault (i : Word) (n : Nibble) : Option Word := if n.toNat > 0 then rangeFault i (n.toNat - 1) else none

/-- CLS (R161): VF unchanged. -/
def execCls (s : State) : Result := .next { s with disp := blankDisplay }.advancePc

/-- DRW Vx, Vy, n (R162): the coordinates and the sprite bytes are read before VF is written. -/
def execDrw (x y n : Nibble) (s : State) : Result :=
  let a := drawSprite s.disp (s.readV x) (s.readV y) (readBlock s.mem s.i.toNat n.toNat)
  .next (s.checked (spriteFault s.i n) (.drw x y n) (({ s with disp := a.disp }.setFlag a.collide).advancePc))

end Sys2Proof.Machine
end

