-- ==== Sys2Proof/Machine/IndexMemory.lean ====
section
/-! DEFINITION. The index register, the font address, BCD, register-file store and load (42_index_memory.md R140 to R146). -/

namespace Sys2Proof.Machine

/-- LD I, addr (R141). -/
def execLdI (a : Addr) (s : State) : Result := .next (s.setI (addrOperand a)).advancePc

/-- ADD I, Vx (R142): modulo 2^16, VF unchanged, no fault above 0xFFF. -/
def execAddIV (x : Nibble) (s : State) : Result := .next (s.setI (s.i + zextByte (s.readV x))).advancePc

/-- LD F, Vx with the font at a base address (R143). -/
def execLdFVWith (base : Word) (x : Nibble) (s : State) : Result :=
  .next (s.setI (glyphAddress base (s.readV x))).advancePc

/-- LD F, Vx (R143). -/
def execLdFV (x : Nibble) (s : State) : Result := execLdFVWith Config.params.fontBase x s

/-- LD B, Vx (R144): the range is checked before any byte is written. -/
def execLdBV (x : Nibble) (s : State) : Result :=
  .next (s.checked (rangeFault s.i 2) (.ldBV x)
    { s with mem := writeBlock s.mem s.i.toNat (decimalDigits (s.readV x)) }.advancePc)

/-- LD [I], Vx under a setting of LOAD_STORE_INCREMENTS_I (R145). -/
def execLdMemVWith (increments : Bool) (x : Nibble) (s : State) : Result :=
  .next (s.checked (rangeFault s.i x.toNat) (.ldMemV x)
    { s with
      mem := writeBlock s.mem s.i.toNat (blockOut s.v x)
      i := indexAfterBlock increments s.i x }.advancePc)

/-- LD [I], Vx (R145): V[0] to V[x] inclusive, V[0] at the lowest address. -/
def execLdMemV (x : Nibble) (s : State) : Result := execLdMemVWith Config.params.loadStoreIncrementsI x s

/-- LD Vx, [I] under a setting of LOAD_STORE_INCREMENTS_I (R146). -/
def execLdVMemWith (increments : Bool) (x : Nibble) (s : State) : Result :=
  .next (s.checked (rangeFault s.i x.toNat) (.ldVMem x)
    { s with
      v := blockIn s.v (readBlock s.mem s.i.toNat (x.toNat + 1))
      i := indexAfterBlock increments s.i x }.advancePc)

/-- LD Vx, [I] (R146): V[0] to V[x] inclusive, VF an ordinary destination. -/
def execLdVMem (x : Nibble) (s : State) : Result := execLdVMemWith Config.params.loadStoreIncrementsI x s

end Sys2Proof.Machine
end

