-- ==== Sys2Proof/Machine/KeypadTimers.lean ====
section
/-! DEFINITION. The key skips, wait-for-key, the timer instructions, the key events and the timer countdown
(44_keypad_timers.md R170 to R180). -/

namespace Sys2Proof.Machine

/-- A key skip: the key V[x] names tested against the wanted position, or OutOfBoundsAccess with the index (R170). -/
def State.keySkip (s : State) (x : Nibble) (i : Instr) (wanted : Bool) : State :=
  match keyIndex (s.readV x) with
  | none => s.raiseFatal .outOfBoundsAccess s.pc (encode i) (zextByte (s.readV x))
  | some k => s.skipIf (s.readKey k == wanted)

/-- SKP Vx (R171). -/
def execSkp (x : Nibble) (s : State) : Result := .next (s.keySkip x (.skp x) true)

/-- SKNP Vx (R172). -/
def execSknp (x : Nibble) (s : State) : Result := .next (s.keySkip x (.sknp x) false)

/-- LD Vx, K (R173): the wait begins; PC and V[x] stay. -/
def execLdVKey (x : Nibble) (s : State) : Result := .next { s with run := { s.run with mode := .waitKey, waitReg := x } }

/-- LD Vx, DT (R176). -/
def execLdVDt (x : Nibble) (s : State) : Result := .next (s.writeV x s.dt).advancePc

/-- LD DT, Vx (R177). -/
def execLdDtV (x : Nibble) (s : State) : Result := .next { s with dt := s.readV x }.advancePc

/-- LD ST, Vx (R178). -/
def execLdStV (x : Nibble) (s : State) : Result := .next { s with st := s.readV x }.advancePc

/-! ### Key events (R174, R175) -/

/-- The end of an FX0A wait: the key's number to V[WAIT_REG], PC past the FX0A, running again (R174). -/
def State.resume (s : State) (k : Nibble) : State :=
  { (s.writeV s.run.waitReg (k.setWidth 8)).advancePc with run := { s.run with mode := .running, waitReg := 0 } }

/-- The event `key_down(k)` (R174). -/
def keyDown (k : Nibble) (s : State) : State :=
  match s.run.mode with
  | .waitKey => (s.writeKey k true).resume k
  | .running => s.writeKey k true
  | .halted => s.writeKey k true

/-- The event `key_up(k)` (R175). -/
def keyUp (k : Nibble) (s : State) : State := s.writeKey k false

/-! ### Timer countdown (R179) -/

/-- One count of a timer, toward zero and not below it. -/
def countDown (b : Byte) : Byte := if b.toNat > 0 then b - 1 else b

/-- The event `timer_tick` (R42, R179): both timers count, in WAIT_KEY too, and freeze in HALTED. -/
def timerTick (s : State) : State :=
  match s.run.mode with
  | .running => { s with dt := countDown s.dt, st := countDown s.st }
  | .waitKey => { s with dt := countDown s.dt, st := countDown s.st }
  | .halted => s

end Sys2Proof.Machine
end

