-- ==== Sys2Proof/Machine/Fetch.lean ====
section
/-! DEFINITION. Everything a step does before an instruction executes: the run mode (10_state.md R41), the fetch bounds
and the fetch (30_encoding.md R70, R71), and dispatch (R75, R77). -/

namespace Sys2Proof.Machine

/-- The bounds check of a fetch at a PC (R71): both PC and PC + 1 must be at most 0xFFF; the address to report. -/
def fetchFault (pc : Word) : Option Word :=
  if pc.toNat > 0xFFE then some (if pc.toNat > 0xFFF then pc else 0x1000) else none

/-- The word at PC, big-endian (R70). -/
def State.fetchWord (s : State) : Word := joinWord (s.readMem s.pc.toNat) (s.readMem (s.pc.toNat + 1))

/-- What a step comes to before execution. -/
inductive StepStart where
  /-- This instruction executes. -/
  | run (i : Instr)
  /-- The step is over in this state. -/
  | settled (s : State)
  deriving DecidableEq, Repr

/-- The start of a step under a setting of STRICT_DECODE, its checks in the order of R83 and R204. In WAIT_KEY and in
HALTED a step changes nothing (R41). -/
def startStepIn (strict : Bool) (s : State) : StepStart :=
  match s.run.mode with
  | .waitKey => .settled s
  | .halted => .settled s
  | .running =>
    match fetchFault s.pc with
    | some a => .settled (s.raiseFatal .outOfBoundsAccess s.pc 0 a)
    | none =>
      match decodeWordIn strict s.fetchWord with
      | none => .settled (s.raiseFatal .unknownOpcode s.pc s.fetchWord 0)
      | some i => .run i

/-- The start of a step on this hardware. -/
def startStep (s : State) : StepStart := startStepIn Config.params.strictDecode s

/-- A word placed where the next step fetches, w[15:8] at PC, and the machine running, which a fetch needs (R41). -/
def State.placeWord (s : State) (w : Word) : State :=
  { s with
    mem := writeBlock s.mem s.pc.toNat (wordBytes w)
    run := match s.run.mode with
      | .running => s.run
      | .waitKey => State.reset.run
      | .halted => State.reset.run }

end Sys2Proof.Machine
end

