-- ==== Sys2Proof/Machine/Step.lean ====
section
/-! DEFINITION. The `step` event: one fetch-decode-execute cycle (10_state.md R41, 30_encoding.md R83). -/

namespace Sys2Proof.Machine

def step (s : State) : Host.Outcome State Fault Refusal :=
  match startStep s with
  | .run i => exec i s
  | .settled t => .next t

/-- The state with an instruction of spec/opcode_table.json where the next step fetches (log entry 5). -/
def State.withFetchWord (s : State) (nbits w : Nat) : State := s.placeWord (tableWord nbits w)

end Sys2Proof.Machine
end

