-- ==== Sys2Proof/Machine/Variant.lean ====
section
/-! DEFINITION. The machine at any values of its parameters: those of 00_scope.md R6 as arguments. At `Config.params` it
is the machine of Step.lean. STEPS_PER_TIMER_TICK is read by the pacer alone (Events.lean). -/

namespace Sys2Proof.Machine

/-- Executing an instruction at given parameters: only six meanings read one. -/
def execWith (p : Params) (i : Instr) (s : State) : Result :=
  match i with
  | .call a => execCallWith p.stackDepth a s
  | .shr x y => execShrWith p.shiftUsesVy x y s
  | .shl x y => execShlWith p.shiftUsesVy x y s
  | .ldFV x => execLdFVWith p.fontBase x s
  | .ldMemV x => execLdMemVWith p.loadStoreIncrementsI x s
  | .ldVMem x => execLdVMemWith p.loadStoreIncrementsI x s
  | other => exec other s

/-- The `step` event at given parameters. -/
def stepWith (p : Params) (s : State) : Result :=
  match startStepIn p.strictDecode s with
  | .run i => execWith p i s
  | .settled t => .next t

/-- Memory right after reset for a font image at a base address (R29, K1-2): the bytes of the default font cleared, the
given ones written. -/
def resetMemoryWith (base : Nat) (image : List Byte) : Memory :=
  writeBlock (writeBlock [] Config.params.fontBase.toNat (List.replicate Config.fontImage.length 0)) base image

/-- The machine right after reset at given parameters: STACK_DEPTH slots, FONT_IMAGE at FONT_BASE (R220). -/
def State.resetWith (p : Params) : State :=
  { State.reset with
    stack := List.replicate p.stackDepth 0
    mem := resetMemoryWith p.fontBase.toNat p.fontImage }

end Sys2Proof.Machine
end

