-- ==== Sys2Proof/Machine/Events.lean ====
section
/-! DEFINITION. The CORE's external interface: the events, the host's calls with their replies, the Advance pacer and
the outputs (10_state.md R40 to R49, 70_reset_and_hazards.md R220 to R231). What runs steps takes the parameters of R6
as its first argument (`…With`); without them it is this hardware. -/

namespace Sys2Proof.Machine

/-! ### Outputs (R46, R47): read-only, a function of the state -/

/-- The `screen` output: 32 rows in order, each of 64 pixel values 0 or 1 in column order (R46). -/
def screen (s : State) : List (List (BitVec 1)) := s.disp.toList.map fun row => row.toList.map BitVec.ofBool

/-- The `beep` output: the sound timer is not zero (R47, R180). -/
def beep (s : State) : Bool := s.st != 0

/-- The `halted` output. -/
def halted (s : State) : Bool := s.run.mode == .halted

/-- The `waiting` output. -/
def waiting (s : State) : Bool := s.run.mode == .waitKey

/-- The code of RUN.MODE (R30). -/
def modeCode : RunMode → BitVec 2
  | .running => 0
  | .waitKey => 1
  | .halted => 2

/-- The code of RUN.HALT_CAUSE (R30, R200). -/
def causeCode : HaltCause → BitVec 3
  | .none => 0
  | .unknownOpcode => 1
  | .stackOverflow => 2
  | .stackUnderflow => 3
  | .outOfBoundsAccess => 4

/-- The `halt_cause` output, as its code. -/
def haltCauseOut (s : State) : BitVec 3 := causeCode s.run.haltCause

/-- The `halt_info` output. -/
def haltInfoOut (s : State) : HaltInfo := s.haltInfo

/-! ### Replies -/

/-- What a call returns to the host; no reply is part of the state (R37). -/
inductive Reply where
  /-- Done. -/
  | ok
  /-- `Ok(L)` of a load (R222). -/
  | loaded (length : Nat)
  /-- `Err(RomTooLarge)`, nothing changed (R205, R222). -/
  | romTooLarge
  /-- `KeyOutOfRange`, nothing changed (R44, R205). -/
  | keyOutOfRange
  /-- The error of a step or an `advance` on a halted engine (R41, R226). -/
  | haltedError (cause : HaltCause)
  deriving DecidableEq, Repr

/-! ### Events (R40, R41) -/

/-- The state after the `step` event. A step answers a next state from every state; the other outcomes cannot occur. -/
def stepEventWith (p : Params) (s : State) : State :=
  match stepWith p s with
  | .next t => t
  | .fault _ => s
  | .refused _ => s

/-- The `step` event on this hardware. -/
def stepEvent (s : State) : State := stepEventWith Config.params s

/-- What a `step` event reports, from the mode before it: an error from a halted engine (R41). DESIGN CHOICE, unsafe: R41
names no report for a step from RUNNING that itself raises a fatal error; the model answers ok for it, and the host
learns of the halt from the status outputs and from its next call (log entry 18). -/
def stepReply (s : State) : Reply :=
  match s.run.mode with
  | .halted => .haltedError s.run.haltCause
  | .running => .ok
  | .waitKey => .ok

/-- The longest ROM image, 4096 - 512 bytes (R222). -/
def maxRom : Nat := 4096 - 512

/-- The event `load(bytes)` (R222): the bytes from 0x200 on and LOADED, or RomTooLarge and no change. -/
def load (bytes : List Byte) (s : State) : State × Reply :=
  if bytes.length > maxRom then (s, .romTooLarge)
  else ({ s with mem := writeBlock s.mem 0x200 bytes, loaded := true }, .loaded bytes.length)

/-- The events of the CORE (R40). -/
inductive Event where
  | step
  | timerTick
  | keyDown (k : Nibble)
  | keyUp (k : Nibble)
  | load (bytes : List Byte)
  deriving DecidableEq, Repr

/-- One event: one atomic transition of the whole state, and its reply (R49). -/
def transitionWith (p : Params) (e : Event) (s : State) : State × Reply :=
  match e with
  | .step => (stepEventWith p s, stepReply s)
  | .timerTick => (timerTick s, .ok)
  | .keyDown k => (keyDown k s, .ok)
  | .keyUp k => (keyUp k s, .ok)
  | .load bytes => load bytes s

/-- One event on this hardware. -/
def transition (e : Event) (s : State) : State × Reply := transitionWith Config.params e s

/-- A sequence of events, one after another (R49). -/
def runEventsWith (p : Params) (s : State) : List Event → State
  | [] => s
  | e :: rest => runEventsWith p (transitionWith p e s).1 rest

/-- A sequence of events on this hardware. -/
def runEvents (s : State) (es : List Event) : State := runEventsWith Config.params s es

/-! ### The host's key calls (R44) -/

/-- Set a key by any index: above 15, KeyOutOfRange and no change (R44, D19). -/
def setKey (k : Nat) (s : State) : State × Reply :=
  if k > 15 then (s, .keyOutOfRange) else (keyDown (BitVec.ofNat 4 k) s, .ok)

/-- Unset a key by any index. -/
def unsetKey (k : Nat) (s : State) : State × Reply :=
  if k > 15 then (s, .keyOutOfRange) else (keyUp (BitVec.ofNat 4 k) s, .ok)

/-! ### The Advance pacer (R225 to R227) -/

/-- The step period P = 1 / (60 N) seconds, exact (R226). -/
def period (n : Nat) : Rat := 1 / (60 * (n : Rat))

/-- How many whole periods a duration holds: the number of turns of the pacer's loop. -/
def periodsIn (n : Nat) (d : Rat) : Nat := (d / period n).floor.toNat

/-- `ACC <- ACC + d`. -/
def State.addAcc (s : State) (d : Rat) : State := { s with pacer := { s.pacer with acc := s.pacer.acc + d } }

/-- A step has been counted: after the N-th, STEP_COUNT is 0 again and a timer tick follows at once (R226, R227). -/
def countStep (n : Nat) (s : State) : State :=
  if s.pacer.stepCount + 1 = n then timerTick { s with pacer := { s.pacer with stepCount := 0 } }
  else { s with pacer := { s.pacer with stepCount := s.pacer.stepCount + 1 } }

/-- The pacer after a step that halts: the rest of the elapsed time is dropped, so that ACC is less than one period
(R34, R226, D29; log entry 12). -/
def dropTime (s : State) : State := { s with pacer := { s.pacer with acc := 0 } }

/-- The pacer's loop (R226), for at most the given number of turns: while ACC holds a whole period, consume it and step;
a step that halts ends the call with an error. -/
def pacerLoop (p : Params) : Nat → State → State × Reply
  | 0, s => (s, .ok)
  | turns + 1, s =>
    if period p.stepsPerTimerTick ≤ s.pacer.acc then
      let t := stepEventWith p (s.addAcc (-period p.stepsPerTimerTick))
      match t.run.mode with
      | .halted => (dropTime t, .haltedError t.run.haltCause)
      | .running => pacerLoop p turns (countStep p.stepsPerTimerTick t)
      | .waitKey => pacerLoop p turns (countStep p.stepsPerTimerTick t)
    else (s, .ok)

/-- `advance(e)`, e ≥ 0 (R226). The loop gets as many turns as ACC holds periods. -/
def advanceWith (p : Params) (e : Rat) (s : State) : State × Reply :=
  match s.run.mode with
  | .halted => (s, .haltedError s.run.haltCause)
  | .running => pacerLoop p (periodsIn p.stepsPerTimerTick (s.addAcc e).pacer.acc) (s.addAcc e)
  | .waitKey => pacerLoop p (periodsIn p.stepsPerTimerTick (s.addAcc e).pacer.acc) (s.addAcc e)

/-- `advance(e)` on this hardware, at the open ratio STEPS_PER_TIMER_TICK. -/
def advance (e : Rat) (s : State) : State × Reply := advanceWith Config.params e s

/-! ### What the host may do when (R48, R223, K1-15) -/

/-- The host's calls. -/
inductive Call where
  | event (e : Event)
  | setKey (k : Nat)
  | unsetKey (k : Nat)
  | advance (e : Rat)
  deriving DecidableEq, Repr

/-- One call of the host. -/
def performWith (p : Params) (c : Call) (s : State) : State × Reply :=
  match c with
  | .event e => transitionWith p e s
  | .setKey k => setKey k s
  | .unsetKey k => unsetKey k s
  | .advance e => advanceWith p e s

/-- One call of the host to this hardware. -/
def perform (c : Call) (s : State) : State × Reply := performWith Config.params c s

/-- The state after a sequence of calls. -/
def runCallsWith (p : Params) (s : State) : List Call → State
  | [] => s
  | c :: rest => runCallsWith p (performWith p c s).1 rest

/-- Whether a call is one that the host may make: a load only where one may still be made, an advance only by a
non-negative duration (R48, K1-15). A late or repeated load is a move the host never makes (R14, D28). -/
def legalCall (mayLoad : Bool) : Call → Bool
  | .event (.load _) => mayLoad
  | .advance e => decide (0 ≤ e)
  | .event .step | .event .timerTick | .event (.keyDown _) | .event (.keyUp _) | .setKey _ | .unsetKey _ => true

/-- Whether a call leaves the load still to be made: it makes no step and no timer tick, which an advance that completes
no step period does not (R48, R226), and loads nothing (log entry 13). -/
def leavesLoadOpen (p : Params) (s : State) : Call → Bool
  | .event .step | .event .timerTick => false
  | .event (.load bytes) => decide (bytes.length > maxRom)
  | .advance e => decide (s.pacer.acc + e < period p.stepsPerTimerTick)
  | .event (.keyDown _) | .event (.keyUp _) | .setKey _ | .unsetKey _ => true

/-- Whether calls made one after another from a state keep R48, a load being still open or not. -/
def legalCallsWith (p : Params) (mayLoad : Bool) (s : State) : List Call → Bool
  | [] => true
  | c :: rest => legalCall mayLoad c && legalCallsWith p (mayLoad && leavesLoadOpen p s c) (performWith p c s).1 rest

/-- Whether calls made from reset on this hardware keep R48. -/
def legalCalls (calls : List Call) : Bool := legalCallsWith Config.params true State.reset calls

end Sys2Proof.Machine
end

