-- ==== Sys2Proof/Safety.lean ====
section
/-! DEFINITION. The terms that claims use: what is unchanged, what a fatal error leaves, which state an instruction may
write, the invariant of the machine, the end of a run (70_reset_and_hazards.md R231), the sprite bit on a pixel. -/

namespace Sys2Proof.Machine

/-! ### What is unchanged -/

/-- The parts of the state. -/
inductive Part where
  | v | i | pc | sp | stack | dt | st | mem | disp | key | run | haltInfo | loaded | pacer | draws
  deriving DecidableEq, Repr

/-- A part reads the same in two states: register by register, byte by byte, pixel by pixel, key by key. -/
def SamePart (s t : State) : Part → Prop
  | .v => ∀ r : Nibble, t.readV r = s.readV r
  | .i => t.i = s.i
  | .pc => t.pc = s.pc
  | .sp => t.sp = s.sp
  | .stack => t.stack = s.stack
  | .dt => t.dt = s.dt
  | .st => t.st = s.st
  | .mem => ∀ a : Nat, t.readMem a = s.readMem a
  | .disp => ∀ (r : Fin 32) (c : Fin 64), pixel t.disp r c = pixel s.disp r c
  | .key => ∀ k : Nibble, t.readKey k = s.readKey k
  | .run => t.run = s.run
  | .haltInfo => t.haltInfo = s.haltInfo
  | .loaded => t.loaded = s.loaded
  | .pacer => t.pacer = s.pacer
  | .draws => t.draws = s.draws

/-- Every part but the ones listed reads the same. -/
def KeepsAllBut (changed : List Part) (s t : State) : Prop := ∀ p : Part, p ∉ changed → SamePart s t p

/-- `t` is `s` after `raise Fatal(cause, pc = PC, word, addr)`: RUN and HALT_INFO as R202 writes them, all else as it
was (R201). -/
def HaltsWith (s t : State) (cause : HaltCause) (word addr : Word) : Prop :=
  t.run = { mode := .halted, waitReg := 0, haltCause := cause } ∧
  t.haltInfo = { pc := s.pc, word := word, addr := addr } ∧
  KeepsAllBut [.run, .haltInfo] s t

/-- The next step fetches and executes this instruction (R83). -/
def Fetches (s : State) (i : Instr) : Prop :=
  s.run.mode = .running ∧ s.pc.toNat ≤ 0xFFE ∧ decodeWord s.fetchWord = some i

/-! ### What an instruction may write -/

/-- The parts that an instruction's rule writes, a fatal error of its own included (R22 to R32, R56, R165, R200). -/
def mayWrite : Instr → List Part
  | .cls _ => [.disp, .pc]
  | .ret _ => [.sp, .pc, .run, .haltInfo]
  | .call _ => [.stack, .sp, .pc, .run, .haltInfo]
  | .jp _ | .jpV0 _ | .seImm _ _ | .sneImm _ _ | .seReg _ _ _ | .sneReg _ _ _ => [.pc]
  | .ldImm _ _ | .addImm _ _ | .ldReg _ _ | .orReg _ _ | .andReg _ _ | .xorReg _ _ | .addReg _ _ | .subReg _ _
  | .shr _ _ | .subnReg _ _ | .shl _ _ | .ldVDt _ => [.v, .pc]
  | .rnd _ _ => [.v, .pc, .draws]
  | .ldI _ | .addIV _ | .ldFV _ => [.i, .pc]
  | .drw _ _ _ => [.disp, .v, .pc, .run, .haltInfo]
  | .skp _ | .sknp _ => [.pc, .run, .haltInfo]
  | .ldVKey _ => [.run]
  | .ldDtV _ => [.dt, .pc]
  | .ldStV _ => [.st, .pc]
  | .ldBV _ | .ldMemV _ => [.mem, .pc, .run, .haltInfo]
  | .ldVMem _ => [.v, .pc, .run, .haltInfo]

/-- Whether an instruction's rule may write V[r]: its destination, and VF where it is written as a flag (R20, R21). -/
def mayWriteReg (r : Nibble) : Instr → Bool
  | .ldImm x _ | .addImm x _ | .ldReg x _ | .orReg x _ | .andReg x _ | .xorReg x _ | .rnd x _ | .ldVDt x => r == x
  | .addReg x _ | .subReg x _ | .shr x _ | .subnReg x _ | .shl x _ => r == x || r == 0xF
  | .drw _ _ _ => r == 0xF
  | .ldVMem x => decide (r.toNat ≤ x.toNat)
  | .cls _ | .ret _ | .jp _ | .call _ | .seImm _ _ | .sneImm _ _ | .seReg _ _ _ | .sneReg _ _ _ | .ldI _ | .jpV0 _
  | .skp _ | .sknp _ | .ldVKey _ | .ldDtV _ | .ldStV _ | .addIV _ | .ldFV _ | .ldBV _ | .ldMemV _ => false

/-- The offset from I of the last byte that an instruction accesses through I, where it accesses one (R56). -/
def lastOffset : Instr → Option Nat
  | .ldBV _ => some 2
  | .ldMemV x => some x.toNat
  | .ldVMem x => some x.toNat
  | .drw _ _ n => if n.toNat = 0 then none else some (n.toNat - 1)
  | .cls _ | .ret _ | .jp _ | .call _ | .seImm _ _ | .sneImm _ _ | .seReg _ _ _ | .sneReg _ _ _ | .ldImm _ _
  | .addImm _ _ | .ldReg _ _ | .orReg _ _ | .andReg _ _ | .xorReg _ _ | .addReg _ _ | .subReg _ _ | .shr _ _
  | .subnReg _ _ | .shl _ _ | .ldI _ | .jpV0 _ | .rnd _ _ | .skp _ | .sknp _ | .ldVDt _ | .ldVKey _ | .ldDtV _
  | .ldStV _ | .addIV _ | .ldFV _ => none

/-- Whether an instruction's meaning reads a parameter of R6. -/
def readsParameter : Instr → Bool
  | .call _ | .shr _ _ | .shl _ _ | .ldFV _ | .ldMemV _ | .ldVMem _ => true
  | .cls _ | .ret _ | .jp _ | .seImm _ _ | .sneImm _ _ | .seReg _ _ _ | .sneReg _ _ _ | .ldImm _ _ | .addImm _ _
  | .ldReg _ _ | .orReg _ _ | .andReg _ _ | .xorReg _ _ | .addReg _ _ | .subReg _ _ | .subnReg _ _ | .ldI _ | .jpV0 _
  | .rnd _ _ | .drw _ _ _ | .skp _ | .sknp _ | .ldVDt _ | .ldVKey _ | .ldDtV _ | .ldStV _ | .addIV _ | .ldBV _ => false

/-! ### The invariant -/

/-- RUN and HALT_INFO agree with the mode (10_state.md R30, R31): WAIT_REG is 0 unless waiting, HALT_CAUSE is NONE
exactly when not halted, HALT_INFO is all 0 unless halted, and then HALT_PC is the PC, which stays at the faulting
instruction (R201). -/
abbrev State.RunOk (s : State) : Prop :=
  (s.run.mode ≠ .waitKey → s.run.waitReg = 0) ∧
  (s.run.haltCause = .none ↔ s.run.mode ≠ .halted) ∧
  (s.run.mode ≠ .halted → s.haltInfo = { pc := 0, word := 0, addr := 0 }) ∧
  (s.run.mode = .halted → s.haltInfo.pc = s.pc)

/-- PC and every stack slot are values that the rules can produce (R23, R103): PC at most 0x10FE, at most 0xFFE while an
FX0A waits there, and a return address at most 0x1000. -/
abbrev State.PcOk (s : State) : Prop :=
  s.pc.toNat ≤ 0x10FE ∧ (s.run.mode = .waitKey → s.pc.toNat ≤ 0xFFE) ∧
  ∀ j, j < s.stack.length → (s.slot j).toNat ≤ 0x1000

/-- The stack has STACK_DEPTH slots, and SP says how many of them are occupied (R24). -/
abbrev State.StackOk (p : Params) (s : State) : Prop := s.stack.length = p.stackDepth ∧ s.sp ≤ p.stackDepth

/-- The invariant that reset has and every step and event keeps, at given parameters. -/
abbrev State.InvIn (p : Params) (s : State) : Prop := Memory.wf s.mem = true ∧ s.StackOk p ∧ s.RunOk ∧ s.PcOk

/-- The invariant on this hardware. -/
abbrev State.Inv (s : State) : Prop := s.InvIn Config.params

/-- While an FX0A waits, PC addresses it: the word at PC is the FX0A whose x is WAIT_REG (R173). -/
abbrev State.WaitOk (s : State) : Prop :=
  s.run.mode = .waitKey → s.pc.toNat ≤ 0xFFE ∧ s.fetchWord = encode (.ldVKey s.run.waitReg)

/-! ### The end of a run -/

/-- The run has ended *halted* (R231). -/
abbrev State.EndedHalted (s : State) : Prop := s.run.mode = .halted

/-- The run has ended *parked* (R231): running, and the word at PC is a jump to PC itself. -/
abbrev State.Parked (s : State) : Prop :=
  s.run.mode = .running ∧ s.pc.toNat ≤ 0xFFE ∧ ∃ a : Addr, s.fetchWord = encode (.jp a) ∧ addrOperand a = s.pc

/-- A safe state: no fatal error has happened. -/
abbrev State.Safe (s : State) : Prop := s.run.mode ≠ .halted

/-- The pacer between calls, at N steps a tick: less than one whole period, and a step count below N (R34). -/
abbrev State.PacerOk (n : Nat) (s : State) : Prop :=
  0 ≤ s.pacer.acc ∧ s.pacer.acc < period n ∧ s.pacer.stepCount < n

/-- The sprite bit that falls on pixel (r, c) when the sprite's rows are drawn at (x0, y0), found backwards from the
pixel (R160): its row is the distance down from y0 modulo 32, its column offset the distance right from x0 modulo 64;
outside the sprite there is none (0). -/
def spriteBit (rows : List Byte) (x0 y0 : Nat) (r : Fin 32) (c : Fin 64) : Bool :=
  decide ((c.val + 64 - x0) % 64 < 8) &&
    (rows.getD ((r.val + 32 - y0) % 32) 0).getLsbD (7 - (c.val + 64 - x0) % 64)

end Sys2Proof.Machine
end

