-- ==== Sys2Proof/Certificates/Slice0/Obligations.lean ====
section
/-! DEFINITION. The statements for the provers, each from a rule of spec/. OBLIGATIONS.json says which. -/

open Sys2Proof Sys2Proof.Machine

/-! ### Encoding (30_encoding.md) -/

/-- R76: decoding the word of an instruction gives the instruction, every operand at every value, for both settings of
STRICT_DECODE. -/
def Obligations.DecodeOfEncodeIsTheInstruction : Prop :=
  ∀ (strict : Bool) (i : Instr), i.wellFormedIn strict = true → decodeWordIn strict (encode i) = some i

/-- R72, R75: a word that decodes is the word of its instruction, which is well-formed: no bit is lost. -/
def Obligations.EncodeOfDecodeIsTheWord : Prop :=
  ∀ (strict : Bool) (w : Word) (i : Instr), decodeWordIn strict w = some i → encode i = w ∧ i.wellFormedIn strict = true

/-- R77: the unknown words are exactly those listed. -/
def Obligations.UnknownWordsAreExactlyTheListed : Prop :=
  ∀ (strict : Bool) (w : Word), decodeWordIn strict w = none ↔
    (fieldOp w = 0x0 ∧ fieldKk w ≠ 0xE0 ∧ fieldKk w ≠ 0xEE) ∨
    (fieldOp w = 0x8 ∧ fieldN w ∈ ([0x8, 0x9, 0xA, 0xB, 0xC, 0xD, 0xF] : List Nibble)) ∨
    (fieldOp w = 0xE ∧ fieldKk w ∉ ([0x9E, 0xA1] : List Byte)) ∨
    (fieldOp w = 0xF ∧ fieldKk w ∉ ([0x07, 0x0A, 0x15, 0x18, 0x1E, 0x29, 0x33, 0x55, 0x65] : List Byte)) ∨
    (strict = true ∧ ((fieldOp w = 0x0 ∧ fieldX w ≠ 0) ∨ ((fieldOp w = 0x5 ∨ fieldOp w = 0x9) ∧ fieldN w ≠ 0)))

/-- R81: how many of the 65536 words decode, lenient and strict. -/
def Obligations.CountOfWordsThatDecode : Prop :=
  ((List.range 65536).countP fun w => (decodeWordIn false (BitVec.ofNat 16 w)).isSome) = 51664 ∧
  ((List.range 65536).countP fun w => (decodeWordIn true (BitVec.ofNat 16 w)).isSome) = 43954

/-- R76: words written out from their patterns, one of each family of spec/. -/
def Obligations.WordsOfThePatternsDecode : Prop :=
  decodeWord 0x01E0 = some (.cls 0x1) ∧ decodeWord 0x00EE = some (.ret 0x0) ∧ decodeWord 0x2ABC = some (.call 0xABC) ∧
  decodeWord 0x9123 = some (.sneReg 0x1 0x2 0x3) ∧ decodeWord 0x8CD1 = some (.orReg 0xC 0xD) ∧
  decodeWord 0x812E = some (.shl 0x1 0x2) ∧ decodeWord 0xC30F = some (.rnd 0x3 0x0F) ∧
  decodeWord 0xA2F0 = some (.ldI 0x2F0) ∧ decodeWord 0xF533 = some (.ldBV 0x5) ∧
  decodeWord 0xD125 = some (.drw 0x1 0x2 0x5) ∧ decodeWord 0xE2A1 = some (.sknp 0x2) ∧
  decodeWord 0xF30A = some (.ldVKey 0x3) ∧ decodeWord 0x0123 = none ∧ decodeWord 0x8008 = none

/-! ### The step (10_state.md R41, 30_encoding.md R70 to R83) -/

/-- R83: in RUNNING, with the fetch in bounds and the two bytes at PC a word that decodes, the step is the execution of
that instruction in this state; nothing is added around it. -/
def Obligations.StepRunsTheDecodedInstruction : Prop :=
  ∀ (s : State) (i : Instr), s.run.mode = .running → s.pc.toNat ≤ 0xFFE →
    decodeWord (s.readMem s.pc.toNat ++ s.readMem (s.pc.toNat + 1)) = some i → step s = exec i s

/-- R71, R77: a fetch above 0xFFE halts with OutOfBoundsAccess, word 0, and the first address out of bounds; a word that
matches no row halts with UnknownOpcode and that word. Nothing else changes. -/
def Obligations.FetchAndDispatchFaultsHalt : Prop :=
  ∀ s : State, s.run.mode = .running →
    (s.pc.toNat > 0xFFE →
      ∃ t, step s = .next t ∧ HaltsWith s t .outOfBoundsAccess 0 (if s.pc.toNat > 0xFFF then s.pc else 0x1000)) ∧
    (s.pc.toNat ≤ 0xFFE → decodeWord s.fetchWord = none →
      ∃ t, step s = .next t ∧ HaltsWith s t .unknownOpcode s.fetchWord 0)

/-- R41: a step in WAIT_KEY or HALTED changes nothing, at any parameters; in HALTED it reports an error, in WAIT_KEY it
does not. -/
def Obligations.StepOutsideRunningChangesNothing : Prop :=
  ∀ (p : Params) (s : State), s.run.mode ≠ .running →
    step s = .next s ∧
    transitionWith p .step s = (s, if s.run.mode = .halted then .haltedError s.run.haltCause else .ok)

/-- Every step answers a next state, from every state: the spec leaves no step without an effect. -/
def Obligations.EveryStepAnswersANextState : Prop :=
  ∀ s : State, ∃ t, step s = .next t

/-- R224: a step with no program halts with UnknownOpcode at 0x200, word 0, whatever keys the host has moved before. -/
def Obligations.StepWithoutALoadHalts : Prop :=
  ∀ keys : List (Nibble × Bool),
    ∃ t, step (keys.foldl (fun s k => if k.2 then keyDown k.1 s else keyUp k.1 s) State.reset) = .next t ∧
      t.run = { mode := .halted, waitReg := 0, haltCause := .unknownOpcode } ∧
      t.haltInfo = { pc := 0x200, word := 0x0000, addr := 0 }

/-- R201: a step that halts has written RUN and HALT_INFO alone, HALT_PC being the PC, which stays. -/
def Obligations.FatalErrorsArePrecise : Prop :=
  ∀ s t : State, step s = .next t → s.run.mode ≠ .halted → t.run.mode = .halted →
    KeepsAllBut [.run, .haltInfo] s t ∧ t.run.waitReg = 0 ∧ t.haltInfo.pc = s.pc

/-- R200, R204: when a step halts, and with which cause: the fetch bounds first, then dispatch, then the instruction's
own check. -/
def Obligations.WhyAStepHalts : Prop :=
  ∀ s t : State, step s = .next t → s.run.mode = .running →
    (t.run.haltCause = .unknownOpcode ∧ t.run.mode = .halted ↔
      s.pc.toNat ≤ 0xFFE ∧ decodeWord s.fetchWord = none) ∧
    (t.run.haltCause = .stackOverflow ∧ t.run.mode = .halted ↔
      s.sp = 16 ∧ ∃ a, Fetches s (.call a)) ∧
    (t.run.haltCause = .stackUnderflow ∧ t.run.mode = .halted ↔
      s.sp = 0 ∧ ∃ g, Fetches s (.ret g)) ∧
    (t.run.haltCause = .outOfBoundsAccess ∧ t.run.mode = .halted ↔
      s.pc.toNat > 0xFFE ∨ (∃ i k, Fetches s i ∧ lastOffset i = some k ∧ s.i.toNat + k > 0xFFF) ∨
      (∃ x, (Fetches s (.skp x) ∨ Fetches s (.sknp x)) ∧ (s.readV x).toNat > 0xF)) ∧
    (t.run.mode = .halted → t.run.haltCause ≠ .none)

/-! ### Whole-machine rules -/

/-- R22 to R36, R56, R165: an instruction that answers a next state has written no part of the state but those its rule
names: only CLS and DRW write DISP, only FX33 and FX55 write MEM, only CALL a stack slot, none KEY, LOADED or the pacer.
Within MEM only the bytes from I to the last one the instruction accesses may change, and within the stack only the slot
that SP names, with no slot added or taken away. -/
def Obligations.NoInstructionWritesMoreThanItsRule : Prop :=
  ∀ (i : Instr) (s t : State), exec i s = .next t →
    KeepsAllBut (mayWrite i) s t ∧
    (∀ a, (∀ k, lastOffset i = some k → a < s.i.toNat ∨ s.i.toNat + k < a) → t.readMem a = s.readMem a) ∧
    t.stack.length = s.stack.length ∧ (∀ j, j ≠ s.sp → t.slot j = s.slot j)

/-- R20, R21: an instruction writes no register but its destination, and VF where it writes the flag. -/
def Obligations.NoInstructionWritesAnotherRegister : Prop :=
  ∀ (i : Instr) (s t : State) (r : Nibble), exec i s = .next t → mayWriteReg r i = false → t.readV r = s.readV r

/-- R26, R32, R34, R35: no step reads ST, LOADED, the pacer or HALT_INFO: two states that differ in these alone step to
states that differ in these alone. ST agrees afterwards where FX18 has written it, HALT_INFO where the step has halted.
Both runs start at the same draw counter, so a CXKK is given the same draw in both (log entry 1: the model's, and unsafe;
the draw of R43 is free in each run). -/
def Obligations.HostOnlyStateIsNeverRead : Prop :=
  ∀ (s t : State) (b : Byte) (l : Bool) (p : Pacer) (h : HaltInfo), step s = .next t →
    ∃ b' h', step { s with st := b, loaded := l, pacer := p, haltInfo := h } =
        .next { t with st := b', loaded := l, pacer := p, haltInfo := h' } ∧
      (((∃ x, Fetches s (.ldStV x)) ∧ b' = t.st) ∨ ((∀ x, ¬ Fetches s (.ldStV x)) ∧ b' = b)) ∧
      ((s.run.mode = .running ∧ t.run.mode = .halted ∧ h' = t.haltInfo) ∨
        (¬ (s.run.mode = .running ∧ t.run.mode = .halted) ∧ h' = h))

/-! ### Control transfer (40_control_transfer.md) -/

/-- R101: RET with a return address on the stack. -/
def Obligations.RetPopsThePc : Prop :=
  ∀ (g : Nibble) (s : State) (n : Nat), s.sp = n + 1 →
    ∃ t, exec (.ret g) s = .next t ∧ t.sp = n ∧ t.pc = s.slot n ∧ KeepsAllBut [.sp, .pc] s t

/-- R102, R108: JP goes to NNN, JP V0 to NNN + V[0], not wrapped to 12 bits, and neither touches anything but PC. -/
def Obligations.JumpsSetThePcAlone : Prop :=
  ∀ (a : Addr) (s : State),
    (∃ t, exec (.jp a) s = .next t ∧ t.pc.toNat = a.toNat ∧ KeepsAllBut [.pc] s t) ∧
    (∃ t, exec (.jpV0 a) s = .next t ∧ t.pc.toNat = a.toNat + (s.readV 0).toNat ∧ KeepsAllBut [.pc] s t)

/-- R103: CALL with a free slot pushes PC + 2 and goes to NNN; the other slots stay. That there are 16 slots is part of
the invariant (StackOk). -/
def Obligations.CallPushesAndJumps : Prop :=
  ∀ (a : Addr) (s : State), s.StackOk Config.params → s.sp < 16 →
    ∃ t, exec (.call a) s = .next t ∧ t.sp = s.sp + 1 ∧ t.pc.toNat = a.toNat ∧ t.stack.length = 16 ∧
      (∀ j, t.slot j = if j = s.sp then s.pc + 2 else s.slot j) ∧ KeepsAllBut [.stack, .sp, .pc] s t

/-- R101, R103: RET with an empty stack halts with StackUnderflow, CALL with every slot in use with StackOverflow, and
nothing else changes. -/
def Obligations.StackFaultsHalt : Prop :=
  ∀ (g : Nibble) (a : Addr) (s : State),
    (Fetches s (.ret g) → s.sp = 0 → ∃ t, step s = .next t ∧ HaltsWith s t .stackUnderflow s.fetchWord 0) ∧
    (Fetches s (.call a) → s.sp = 16 → ∃ t, step s = .next t ∧ HaltsWith s t .stackOverflow s.fetchWord 0)

/-- R103: a call followed at once by a return comes back to the instruction after the call, with the stack as deep as
before and nothing else changed but the slot that was used. -/
def Obligations.CallThenReturnComesBack : Prop :=
  ∀ (a : Addr) (g : Nibble) (s : State), s.StackOk Config.params → s.sp < 16 →
    ∃ t u, exec (.call a) s = .next t ∧ exec (.ret g) t = .next u ∧ u.pc = s.pc + 2 ∧ u.sp = s.sp ∧
      (∀ j, j ≠ s.sp → u.slot j = s.slot j) ∧ KeepsAllBut [.stack, .pc] s u

/-- R104 to R107: each skip takes PC + 4 where its comparison holds and PC + 2 where it does not, and writes PC alone;
the bits that 5XYn and 9XYn ignore make no difference. -/
def Obligations.SkipsAddFourOrTwo : Prop :=
  ∀ (x y g : Nibble) (kk : Byte) (s : State),
    (∃ t, exec (.seImm x kk) s = .next t ∧ t.pc = s.pc + (if (s.readV x).toNat = kk.toNat then 4 else 2) ∧ KeepsAllBut [.pc] s t) ∧
    (∃ t, exec (.sneImm x kk) s = .next t ∧ t.pc = s.pc + (if (s.readV x).toNat = kk.toNat then 2 else 4) ∧ KeepsAllBut [.pc] s t) ∧
    (∃ t, exec (.seReg x y g) s = .next t ∧ t.pc = s.pc + (if (s.readV x).toNat = (s.readV y).toNat then 4 else 2) ∧
      KeepsAllBut [.pc] s t) ∧
    (∃ t, exec (.sneReg x y g) s = .next t ∧ t.pc = s.pc + (if (s.readV x).toNat = (s.readV y).toNat then 2 else 4) ∧
      KeepsAllBut [.pc] s t)

/-! ### ALU (41_alu.md) -/

/-- An instruction that writes `result` to V[x], no other register and no flag, and goes on at PC + 2. -/
def WritesRegister (i : Instr) (s : State) (x : Nibble) (result : Nat) : Prop :=
  ∃ t, exec i s = .next t ∧ (t.readV x).toNat = result ∧ (∀ r, r ≠ x → t.readV r = s.readV r) ∧ t.pc = s.pc + 2 ∧
    KeepsAllBut [.v, .pc] s t

/-- An instruction that writes `result` to V[x], then `flag` to VF, no other register, and goes on at PC + 2. -/
def WritesRegisterAndFlag (i : Instr) (s : State) (x : Nibble) (result : Nat) (flag : Prop) : Prop :=
  ∃ t, exec i s = .next t ∧ (x ≠ 0xF → (t.readV x).toNat = result) ∧
    ((flag ∧ t.readV 0xF = 1) ∨ (¬ flag ∧ t.readV 0xF = 0)) ∧
    (∀ r, r ≠ x → r ≠ 0xF → t.readV r = s.readV r) ∧ t.pc = s.pc + 2 ∧ KeepsAllBut [.v, .pc] s t

/-- R121 to R126: load immediate, add immediate modulo 256 with no carry, copy, and OR, AND and XOR of the old V[x] and
V[y] as bit operations on the numbers; VF changes only as the destination. -/
def Obligations.RegisterWritesWithoutAFlag : Prop :=
  ∀ (x y : Nibble) (kk : Byte) (s : State),
    WritesRegister (.ldImm x kk) s x kk.toNat ∧
    WritesRegister (.addImm x kk) s x (((s.readV x).toNat + kk.toNat) % 256) ∧
    WritesRegister (.ldReg x y) s x (s.readV y).toNat ∧
    WritesRegister (.orReg x y) s x ((s.readV x).toNat ||| (s.readV y).toNat) ∧
    WritesRegister (.andReg x y) s x ((s.readV x).toNat &&& (s.readV y).toNat) ∧
    WritesRegister (.xorReg x y) s x ((s.readV x).toNat ^^^ (s.readV y).toNat)

/-- R127: the sum modulo 256, and VF the carry of the old values, written last. -/
def Obligations.AddSetsTheCarry : Prop :=
  ∀ (x y : Nibble) (s : State),
    WritesRegisterAndFlag (.addReg x y) s x (((s.readV x).toNat + (s.readV y).toNat) % 256)
      ((s.readV x).toNat + (s.readV y).toNat > 255)

/-- R128, R130: the difference modulo 256, and VF = 1 where no borrow occurs, equality included, written last. -/
def Obligations.SubtractionsSetNotBorrow : Prop :=
  ∀ (x y : Nibble) (s : State),
    WritesRegisterAndFlag (.subReg x y) s x (((s.readV x).toNat + 256 - (s.readV y).toNat) % 256)
      ((s.readV x).toNat ≥ (s.readV y).toNat) ∧
    WritesRegisterAndFlag (.subnReg x y) s x (((s.readV y).toNat + 256 - (s.readV x).toNat) % 256)
      ((s.readV y).toNat ≥ (s.readV x).toNat)

/-- R129, R131 with SHIFT_USES_VY = false: V[x] halved, VF its bit 0; V[x] doubled modulo 256, VF its bit 7. -/
def Obligations.ShiftsSetTheBitShiftedOut : Prop :=
  ∀ (x y : Nibble) (s : State),
    WritesRegisterAndFlag (.shr x y) s x ((s.readV x).toNat / 2) ((s.readV x).toNat % 2 = 1) ∧
    WritesRegisterAndFlag (.shl x y) s x ((s.readV x).toNat * 2 % 256) ((s.readV x).toNat ≥ 128)

/-- R132: RND writes some byte masked by kk and nothing else of the spec's state, and whatever byte the draw gives, that
byte masked is what it writes; with kk = 0 the result is 0. The draw is free (R43, log entry 1): nothing rests on its
value or on the counter that names it. -/
def Obligations.RandomIsMasked : Prop :=
  ∀ (x : Nibble) (kk : Byte) (s : State),
    (∃ t r, exec (.rnd x kk) s = .next t ∧ t.readV x = r &&& kk ∧ (kk = 0 → t.readV x = 0) ∧
      (∀ q, q ≠ x → t.readV q = s.readV q) ∧ t.pc = s.pc + 2 ∧ KeepsAllBut [.v, .pc, .draws] s t) ∧
    (∀ r : Byte, (randomInto r x kk s).readV x = r &&& kk ∧ (∀ q, q ≠ x → (randomInto r x kk s).readV q = s.readV q) ∧
      (randomInto r x kk s).pc = s.pc + 2)

/-! ### Index register and memory (42_index_memory.md) -/

/-- R141, R142, R143: the three writes of I, VF and memory untouched. -/
def Obligations.IndexRegisterWrites : Prop :=
  ∀ (a : Addr) (x : Nibble) (s : State),
    (∃ t, exec (.ldI a) s = .next t ∧ t.i.toNat = a.toNat ∧ t.pc = s.pc + 2 ∧ KeepsAllBut [.i, .pc] s t) ∧
    (∃ t, exec (.addIV x) s = .next t ∧ t.i.toNat = (s.i.toNat + (s.readV x).toNat) % 65536 ∧ t.pc = s.pc + 2 ∧
      KeepsAllBut [.i, .pc] s t) ∧
    (∃ t, exec (.ldFV x) s = .next t ∧ t.i.toNat = 5 * ((s.readV x).toNat % 16) ∧ t.pc = s.pc + 2 ∧ KeepsAllBut [.i, .pc] s t)

/-- R33, R143: while the program has not written the font region, FX29 leaves I at the five bytes of the digit's glyph. -/
def Obligations.FontAddressPointsAtTheGlyph : Prop :=
  ∀ (x : Nibble) (s : State), (∀ a, a < 80 → s.readMem a = State.reset.readMem a) →
    ∃ t, exec (.ldFV x) s = .next t ∧ ∀ k, k < 5 →
      Config.fontImage[5 * ((s.readV x).toNat % 16) + k]? = some (t.readMem (t.i.toNat + k))

/-- R144: FX33 in range stores the three decimal digits of V[x], hundreds first, and nothing else. -/
def Obligations.BcdStoresThreeDigits : Prop :=
  ∀ (x : Nibble) (s : State), Memory.wf s.mem = true → s.i.toNat + 2 ≤ 0xFFF →
    ∃ t, exec (.ldBV x) s = .next t ∧
      (t.readMem s.i.toNat).toNat = (s.readV x).toNat / 100 ∧
      (t.readMem (s.i.toNat + 1)).toNat = (s.readV x).toNat / 10 % 10 ∧
      (t.readMem (s.i.toNat + 2)).toNat = (s.readV x).toNat % 10 ∧
      (∀ a, a < s.i.toNat ∨ s.i.toNat + 2 < a → t.readMem a = s.readMem a) ∧
      t.pc = s.pc + 2 ∧ KeepsAllBut [.mem, .pc] s t

/-- R145 with LOAD_STORE_INCREMENTS_I = false: FX55 in range stores V[0] to V[x], V[0] lowest, and leaves I. -/
def Obligations.RegisterStoreWritesTheBlock : Prop :=
  ∀ (x : Nibble) (s : State), Memory.wf s.mem = true → s.i.toNat + x.toNat ≤ 0xFFF →
    ∃ t, exec (.ldMemV x) s = .next t ∧
      (∀ r : Nibble, r.toNat ≤ x.toNat → t.readMem (s.i.toNat + r.toNat) = s.readV r) ∧
      (∀ a, a < s.i.toNat ∨ s.i.toNat + x.toNat < a → t.readMem a = s.readMem a) ∧
      t.pc = s.pc + 2 ∧ KeepsAllBut [.mem, .pc] s t

/-- R146 with LOAD_STORE_INCREMENTS_I = false: FX65 in range loads V[0] to V[x] and leaves I and the other registers. -/
def Obligations.RegisterLoadReadsTheBlock : Prop :=
  ∀ (x : Nibble) (s : State), s.i.toNat + x.toNat ≤ 0xFFF →
    ∃ t, exec (.ldVMem x) s = .next t ∧
      (∀ r : Nibble, t.readV r = if r.toNat ≤ x.toNat then s.readMem (s.i.toNat + r.toNat) else s.readV r) ∧
      t.pc = s.pc + 2 ∧ KeepsAllBut [.v, .pc] s t

/-- R52, R140, R170: an access through I whose last byte is above 0xFFF, and a key skip with V[x] above 0xF, halt with
OutOfBoundsAccess at the lowest address out of bounds, or the key index, and nothing is written. -/
def Obligations.OutOfBoundsHalts : Prop :=
  ∀ s : State,
    (∀ i k, Fetches s i → lastOffset i = some k → s.i.toNat + k > 0xFFF →
      ∃ t, step s = .next t ∧ HaltsWith s t .outOfBoundsAccess s.fetchWord (if s.i.toNat > 0x1000 then s.i else 0x1000)) ∧
    (∀ x, Fetches s (.skp x) ∨ Fetches s (.sknp x) → (s.readV x).toNat > 0xF →
      ∃ t, step s = .next t ∧ HaltsWith s t .outOfBoundsAccess s.fetchWord (BitVec.ofNat 16 (s.readV x).toNat))

/-- R61: a byte pair that FX55 stores over the next instruction is the word that the next step fetches. -/
def Obligations.StoredWordIsFetchedNext : Prop :=
  ∀ (x j k : Nibble) (s : State), Memory.wf s.mem = true → s.i.toNat + x.toNat ≤ 0xFFF → s.pc.toNat ≤ 0xFFC →
    k.toNat = j.toNat + 1 → k.toNat ≤ x.toNat → s.i.toNat + j.toNat = s.pc.toNat + 2 →
    ∃ t, exec (.ldMemV x) s = .next t ∧ t.fetchWord = s.readV j ++ s.readV k

/-- Two memories in canonical form that read the same everywhere are the same data (the model's representation). -/
def Obligations.MemoryIsCanonical : Prop :=
  ∀ m n : Memory, Memory.wf m = true → Memory.wf n = true → (∀ a, a < 4096 → memRead m a = memRead n a) → m = n

/-! ### Display (43_display.md) -/

/-- R161: CLS clears every pixel, whatever x its word has, and leaves VF and the rest. -/
def Obligations.ClsClearsEveryPixel : Prop :=
  ∀ (g : Nibble) (s : State), ∃ t, exec (.cls g) s = .next t ∧ (∀ r c, pixel t.disp r c = false) ∧ t.pc = s.pc + 2 ∧
    KeepsAllBut [.disp, .pc] s t

/-- R160, R162, R163: DRW in range (always, for n = 0) flips exactly the pixels on which a sprite bit 1 falls, with the
old V[x] and V[y] as coordinates, and VF is 1 exactly where one of those pixels was set. -/
def Obligations.DrawFlipsTheSpritePixels : Prop :=
  ∀ (x y n : Nibble) (s : State), (n.toNat = 0 ∨ s.i.toNat + (n.toNat - 1) ≤ 0xFFF) →
    ∃ t, exec (.drw x y n) s = .next t ∧
      (∀ r c, pixel t.disp r c = (pixel s.disp r c ^^
        spriteBit ((List.range n.toNat).map fun k => s.readMem (s.i.toNat + k)) ((s.readV x).toNat % 64) ((s.readV y).toNat % 32) r c)) ∧
      ((∃ r c, pixel s.disp r c = true ∧ pixel t.disp r c = false) ∧ t.readV 0xF = 1 ∨
        (∀ r c, pixel s.disp r c = true → pixel t.disp r c = true) ∧ t.readV 0xF = 0) ∧
      (∀ r, r ≠ 0xF → t.readV r = s.readV r) ∧ t.pc = s.pc + 2 ∧ KeepsAllBut [.disp, .v, .pc] s t

/-- R164: two draws of the same bytes at the same coordinates leave the display as it was, and the second sets VF exactly
where the first left a sprite pixel set. -/
def Obligations.DrawingTwiceUndoesTheFirst : Prop :=
  ∀ (x y n : Nibble) (s t : State), (n.toNat = 0 ∨ s.i.toNat + (n.toNat - 1) ≤ 0xFFF) → exec (.drw x y n) s = .next t →
    t.readV x = s.readV x → t.readV y = s.readV y →
    ∃ u, exec (.drw x y n) t = .next u ∧ (∀ r c, pixel u.disp r c = pixel s.disp r c) ∧
      (u.readV 0xF = 1 ↔ ∃ r c, pixel t.disp r c = true ∧
        spriteBit ((List.range n.toNat).map fun k => s.readMem (s.i.toNat + k)) ((s.readV x).toNat % 64) ((s.readV y).toNat % 32) r c = true)

/-! ### Keypad and timers (44_keypad_timers.md) -/

/-- R171, R172: with V[x] at most 0xF, SKP skips where the key is down and SKNP where it is up. -/
def Obligations.KeySkipsTestTheLatch : Prop :=
  ∀ (x k : Nibble) (s : State), (s.readV x).toNat = k.toNat →
    (∃ t, exec (.skp x) s = .next t ∧ t.pc = s.pc + (if s.readKey k = true then 4 else 2) ∧ KeepsAllBut [.pc] s t) ∧
    (∃ t, exec (.sknp x) s = .next t ∧ t.pc = s.pc + (if s.readKey k = true then 2 else 4) ∧ KeepsAllBut [.pc] s t)

/-- R173: FX0A starts the wait for V[x] and changes nothing else; PC still addresses it. -/
def Obligations.WaitForKeyStartsTheWait : Prop :=
  ∀ (x : Nibble) (s : State), ∃ t, exec (.ldVKey x) s = .next t ∧ t.run.mode = .waitKey ∧ t.run.waitReg = x ∧
    t.run.haltCause = s.run.haltCause ∧ KeepsAllBut [.run] s t

/-- R174, R175: key_down sets the key's flag, and in WAIT_KEY stores the key in V[WAIT_REG], moves PC past the FX0A and
runs again; in RUNNING and HALTED nothing else changes. key_up clears the key's flag and changes nothing else. -/
def Obligations.KeyEventsWriteTheLatchAndEndTheWait : Prop :=
  ∀ (k : Nibble) (s : State),
    (∀ j, (keyDown k s).readKey j = if j = k then true else s.readKey j) ∧
    (s.run.mode = .waitKey →
      (∀ r, (keyDown k s).readV r = if r = s.run.waitReg then BitVec.ofNat 8 k.toNat else s.readV r) ∧
      (keyDown k s).pc = s.pc + 2 ∧
      (keyDown k s).run = { mode := .running, waitReg := 0, haltCause := s.run.haltCause } ∧
      KeepsAllBut [.v, .pc, .key, .run] s (keyDown k s)) ∧
    (s.run.mode ≠ .waitKey → KeepsAllBut [.key] s (keyDown k s)) ∧
    (∀ j, (keyUp k s).readKey j = if j = k then false else s.readKey j) ∧
    KeepsAllBut [.key] s (keyUp k s)

/-- R41, R175, R212: steps, timer ticks and key_up events, however many, never end a wait; while it lasts nothing but the
timers and the key flags changes. -/
def Obligations.OnlyAKeyDownEndsAWait : Prop :=
  ∀ (p : Params) (es : List Event) (s : State), s.run.mode = .waitKey →
    (∀ e, e ∈ es → e = .step ∨ e = .timerTick ∨ ∃ k, e = .keyUp k) →
    KeepsAllBut [.dt, .st, .key] s (runEventsWith p s es)

/-- R203: from HALTED, whatever events the host makes (a load it never makes apart), nothing but the key flags changes. -/
def Obligations.HaltedIsTerminal : Prop :=
  ∀ (p : Params) (es : List Event) (s : State), s.run.mode = .halted → (∀ e, e ∈ es → ∀ bytes, e ≠ .load bytes) →
    KeepsAllBut [.key] s (runEventsWith p s es)

/-- R176, R177, R178: the timer instructions. -/
def Obligations.TimerInstructionsMoveTheTimers : Prop :=
  ∀ (x : Nibble) (s : State),
    WritesRegister (.ldVDt x) s x s.dt.toNat ∧
    (∃ t, exec (.ldDtV x) s = .next t ∧ t.dt = s.readV x ∧ t.pc = s.pc + 2 ∧ KeepsAllBut [.dt, .pc] s t) ∧
    (∃ t, exec (.ldStV x) s = .next t ∧ t.st = s.readV x ∧ t.pc = s.pc + 2 ∧ KeepsAllBut [.st, .pc] s t)

/-- R42, R179: a timer tick takes one from each timer that is not 0, in RUNNING and WAIT_KEY, and changes nothing else; in
HALTED it changes nothing. -/
def Obligations.TimerTickCountsDown : Prop :=
  ∀ s : State,
    (s.run.mode ≠ .halted → (timerTick s).dt.toNat = s.dt.toNat - 1 ∧ (timerTick s).st.toNat = s.st.toNat - 1 ∧
      KeepsAllBut [.dt, .st] s (timerTick s)) ∧
    (s.run.mode = .halted → timerTick s = s)

/-- R180: after k timer ticks the timers are k lower, not below 0, and beep is true exactly while fewer than ST ticks
have passed. -/
def Obligations.BeepLastsSoundTimerTicks : Prop :=
  ∀ (k : Nat) (s : State), s.run.mode ≠ .halted →
    (runEvents s (List.replicate k .timerTick)).dt.toNat = s.dt.toNat - k ∧
    (runEvents s (List.replicate k .timerTick)).st.toNat = s.st.toNat - k ∧
    (beep (runEvents s (List.replicate k .timerTick)) = true ↔ k < s.st.toNat)

/-! ### Reset, load, pacer, outputs (10_state.md, 70_reset_and_hazards.md) -/

/-- R220: the state after reset, and at other parameters the same but for STACK_DEPTH slots and FONT_IMAGE at FONT_BASE
(R6, R29), where the image fits into memory. -/
def Obligations.ResetState : Prop :=
  (∀ r, State.reset.readV r = 0) ∧ State.reset.i = 0 ∧ State.reset.pc = 0x200 ∧ State.reset.sp = 0 ∧
  State.reset.stack = List.replicate 16 0 ∧ State.reset.dt = 0 ∧ State.reset.st = 0 ∧
  (∀ a, State.reset.readMem a = Config.fontImage.getD a 0) ∧ (∀ r c, pixel State.reset.disp r c = false) ∧
  (∀ k, State.reset.readKey k = false) ∧
  State.reset.run = { mode := .running, waitReg := 0, haltCause := .none } ∧
  State.reset.haltInfo = { pc := 0, word := 0, addr := 0 } ∧ State.reset.loaded = false ∧
  State.reset.pacer = { acc := 0, stepCount := 0 } ∧
  (∀ p : Params, p.fontBase.toNat + p.fontImage.length ≤ 4096 →
    (State.resetWith p).stack = List.replicate p.stackDepth 0 ∧
    (∀ a, (State.resetWith p).readMem a =
      if p.fontBase.toNat ≤ a then p.fontImage.getD (a - p.fontBase.toNat) 0 else 0) ∧
    KeepsAllBut [.stack, .mem] State.reset (State.resetWith p))

/-- R222: a load of at most 3584 bytes puts them from 0x200 on, sets LOADED and answers the length; a longer one answers
RomTooLarge and changes nothing. -/
def Obligations.LoadCopiesTheImage : Prop :=
  ∀ (bytes : List Byte) (s : State), Memory.wf s.mem = true →
    (bytes.length ≤ 3584 → (load bytes s).2 = .loaded bytes.length ∧ (load bytes s).1.loaded = true ∧
      (∀ a, (load bytes s).1.readMem a =
        if 0x200 ≤ a ∧ a < 0x200 + bytes.length then bytes.getD (a - 0x200) 0 else s.readMem a) ∧
      KeepsAllBut [.mem, .loaded] s (load bytes s).1) ∧
    (bytes.length > 3584 → load bytes s = (s, .romTooLarge))

/-- R44: a key index above 15 is refused with KeyOutOfRange and no change; one up to 15 is the key event. -/
def Obligations.KeyCallsCheckTheIndex : Prop :=
  ∀ (k : Nat) (s : State),
    (k > 15 → setKey k s = (s, .keyOutOfRange) ∧ unsetKey k s = (s, .keyOutOfRange)) ∧
    (∀ j : Nibble, setKey j.toNat s = (keyDown j s, .ok) ∧ unsetKey j.toNat s = (keyUp j s, .ok))

/-- R226, R227: at any STEPS_PER_TIMER_TICK = N of at least 1, a whole period from an engine that is not halted, with
ACC = 0, is one step, in WAIT_KEY too, then the timer tick where that step is the N-th, with ACC 0 again; a step that
halts is answered with the error, and so is every advance from HALTED, which changes nothing (R203). -/
def Obligations.OnePeriodIsOneStepThenItsTick : Prop :=
  ∀ (p : Params) (s : State),
    (∀ t, p.stepsPerTimerTick ≥ 1 → s.run.mode ≠ .halted → s.pacer.acc = 0 → stepWith p s = .next t →
      (t.run.mode ≠ .halted → advanceWith p (period p.stepsPerTimerTick) s =
        (if s.pacer.stepCount + 1 = p.stepsPerTimerTick then timerTick { t with pacer := { acc := 0, stepCount := 0 } }
          else { t with pacer := { acc := 0, stepCount := s.pacer.stepCount + 1 } }, .ok)) ∧
      (t.run.mode = .halted → advanceWith p (period p.stepsPerTimerTick) s = (t, .haltedError t.run.haltCause))) ∧
    (∀ e, s.run.mode = .halted → advanceWith p e s = (s, .haltedError s.run.haltCause))

/-- R34, R226: a call of advance, whatever it answers, leaves less than a whole period in ACC and a step count below N.
That a call that halts leaves ACC 0 is the model's reading of the time it drops (log entry 12). -/
def Obligations.AdvanceConsumesEveryWholePeriod : Prop :=
  ∀ (p : Params) (e : Rat) (s : State), p.stepsPerTimerTick ≥ 1 → 0 ≤ e → s.PacerOk p.stepsPerTimerTick →
    (advanceWith p e s).1.PacerOk p.stepsPerTimerTick

/-- R226: time is exact: two calls of advance one after the other do what one call with the sum does, when the first
answers Ok. The one call and the two start at the same draw counter, so every CXKK is given the same draw in both (log
entry 1: the model's, and unsafe; the draw of R43 is free in each run). -/
def Obligations.AdvanceAddsUp : Prop :=
  ∀ (p : Params) (d e : Rat) (s : State), p.stepsPerTimerTick ≥ 1 → 0 ≤ d → 0 ≤ e → s.PacerOk p.stepsPerTimerTick →
    (advanceWith p d s).2 = .ok →
    advanceWith p (d + e) s = advanceWith p e (advanceWith p d s).1

/-- R46: the screen has 32 rows of 64 values, and value c of row r is DISP[r][c] as 0 or 1. -/
def Obligations.ScreenShowsThePixels : Prop :=
  ∀ s : State, (screen s).length = 32 ∧ ∀ (r : Fin 32) (c : Fin 64),
    ∃ row, (screen s)[r.val]? = some row ∧ row.length = 64 ∧ row[c.val]? = some (if pixel s.disp r c then 1 else 0)

/-- R231: at a jump to itself no step changes anything, and steps, ticks and key events, however many, leave all but the
timers and the key flags as they are. -/
def Obligations.ParkedStaysParked : Prop :=
  ∀ (p : Params) (es : List Event) (s : State), s.Parked → (∀ e, e ∈ es → ∀ bytes, e ≠ .load bytes) →
    step s = .next s ∧ KeepsAllBut [.dt, .st, .key] s (runEventsWith p s es) ∧ (runEventsWith p s es).Parked

/-! ### Parameters (00_scope.md R6) -/

/-- R6: the machine with its parameters as arguments, at the values this hardware takes, is this machine. -/
def Obligations.StepIsTheParametersOfThisHardware : Prop :=
  ∀ s : State, stepWith Config.params s = step s

/-- R103, R129, R131, R143, R145, R146 at any parameters: CALL has STACK_DEPTH slots; the shifts take V[y] exactly when
SHIFT_USES_VY; FX29 counts from FONT_BASE; FX55 and FX65 in range move the block, and I after them is I + x + 1 exactly
when LOAD_STORE_INCREMENTS_I, and otherwise as before. Each leaves all but its destinations and PC, and the meanings of
the other instructions read no parameter. -/
def Obligations.MeaningsFollowTheParameters : Prop :=
  ∀ (p : Params) (x y : Nibble) (a : Addr) (s : State),
    (s.StackOk p → s.sp < p.stackDepth →
      ∃ t, execWith p (.call a) s = .next t ∧ t.sp = s.sp + 1 ∧ t.pc.toNat = a.toNat ∧
        (∀ j, t.slot j = if j = s.sp then s.pc + 2 else s.slot j) ∧ KeepsAllBut [.stack, .sp, .pc] s t) ∧
    (s.sp = p.stackDepth →
      ∃ t, execWith p (.call a) s = .next t ∧ HaltsWith s t .stackOverflow (encode (.call a)) 0) ∧
    (∃ t, execWith p (.shr x y) s = .next t ∧
      t.readV 0xF = BitVec.ofNat 8 ((s.readV (if p.shiftUsesVy then y else x)).toNat % 2) ∧
      (x ≠ 0xF → (t.readV x).toNat = (s.readV (if p.shiftUsesVy then y else x)).toNat / 2) ∧
      (∀ r, r ≠ x → r ≠ 0xF → t.readV r = s.readV r) ∧ t.pc = s.pc + 2 ∧ KeepsAllBut [.v, .pc] s t) ∧
    (∃ t, execWith p (.shl x y) s = .next t ∧
      t.readV 0xF = BitVec.ofNat 8 ((s.readV (if p.shiftUsesVy then y else x)).toNat / 128) ∧
      (x ≠ 0xF → (t.readV x).toNat = (s.readV (if p.shiftUsesVy then y else x)).toNat * 2 % 256) ∧
      (∀ r, r ≠ x → r ≠ 0xF → t.readV r = s.readV r) ∧ t.pc = s.pc + 2 ∧ KeepsAllBut [.v, .pc] s t) ∧
    (∃ t, execWith p (.ldFV x) s = .next t ∧
      t.i.toNat = (p.fontBase.toNat + 5 * ((s.readV x).toNat % 16)) % 65536 ∧
      t.pc = s.pc + 2 ∧ KeepsAllBut [.i, .pc] s t) ∧
    (s.i.toNat + x.toNat ≤ 0xFFF →
      (∃ t, execWith p (.ldMemV x) s = .next t ∧
        (Memory.wf s.mem = true → ∀ r : Nibble, r.toNat ≤ x.toNat → t.readMem (s.i.toNat + r.toNat) = s.readV r) ∧
        (∀ b, b < s.i.toNat ∨ s.i.toNat + x.toNat < b → t.readMem b = s.readMem b) ∧
        t.i.toNat = (if p.loadStoreIncrementsI then s.i.toNat + x.toNat + 1 else s.i.toNat) ∧
        t.pc = s.pc + 2 ∧ KeepsAllBut [.mem, .i, .pc] s t) ∧
      (∃ t, execWith p (.ldVMem x) s = .next t ∧
        (∀ r : Nibble, t.readV r = if r.toNat ≤ x.toNat then s.readMem (s.i.toNat + r.toNat) else s.readV r) ∧
        t.i.toNat = (if p.loadStoreIncrementsI then s.i.toNat + x.toNat + 1 else s.i.toNat) ∧
        t.pc = s.pc + 2 ∧ KeepsAllBut [.v, .i, .pc] s t)) ∧
    (∀ i, readsParameter i = false → execWith p i s = exec i s)

/-- R75, R77: with STRICT_DECODE, a word of the families 0x0, 0x5 and 0x9 with a non-zero ignored field halts with
UnknownOpcode. -/
def Obligations.StrictDecodeHaltsOnIgnoredFields : Prop :=
  ∀ (p : Params) (s : State), p.strictDecode = true → s.run.mode = .running → s.pc.toNat ≤ 0xFFE →
    ((fieldOp s.fetchWord = 0x0 ∧ fieldX s.fetchWord ≠ 0) ∨
      ((fieldOp s.fetchWord = 0x5 ∨ fieldOp s.fetchWord = 0x9) ∧ fieldN s.fetchWord ≠ 0)) →
    ∃ t, stepWith p s = .next t ∧ HaltsWith s t .unknownOpcode s.fetchWord 0

/-! ### Invariants -/

/-- Reset meets the invariant, at this hardware's parameters and at every others whose font image fits into memory. -/
def Obligations.ResetMeetsTheInvariant : Prop :=
  State.reset.Inv ∧
  ∀ p : Params, p.fontBase.toNat + p.fontImage.length ≤ 4096 → (State.resetWith p).InvIn p

/-- Every step keeps the invariant: memory in canonical form, STACK_DEPTH slots and SP at most that (R24), RUN and
HALT_INFO in agreement with the mode (R30, R31, R201), PC at most 0x10FE and a return address at most 0x1000 (R23, R103).
So does every step and every other event at any parameters. -/
def Obligations.StepKeepsTheInvariant : Prop :=
  (∀ s t : State, s.Inv → step s = .next t → t.Inv) ∧
  (∀ (p : Params) (s t : State), s.InvIn p → stepWith p s = .next t → t.InvIn p) ∧
  (∀ (p : Params) (e : Event) (s : State), s.InvIn p → (transitionWith p e s).1.InvIn p)

/-- R173: while an FX0A waits, PC addresses it and WAIT_REG is its x: every step, tick and key event keeps this, at any
parameters. -/
def Obligations.WaitingPcAddressesItsInstruction : Prop :=
  State.reset.WaitOk ∧
  ∀ (p : Params) (e : Event) (s : State), s.WaitOk → (∀ bytes, e ≠ .load bytes) → (transitionWith p e s).1.WaitOk

/-! ### The host's calls (10_state.md R48) -/

/-- R48, R222: a load that the host may make, after whatever calls it may make before, meets the reset state: nothing but
the key flags and the pacer has changed, and LOADED is 0 (a load refused as too long apart, which is the model's choice to
allow again, log entry 13). -/
def Obligations.LegalLoadMeetsTheResetState : Prop :=
  ∀ (p : Params) (calls : List Call) (bytes : List Byte),
    legalCallsWith p true (State.resetWith p) (calls ++ [.event (.load bytes)]) = true →
    KeepsAllBut [.key, .pacer] (State.resetWith p) (runCallsWith p (State.resetWith p) calls)
end

