-- ==== Sys2Proof/Laws/Decode.lean ====
section
/-! SUPPORT. The fields of a packed word, and a word packed from its fields (30_encoding.md R72). -/

namespace Sys2Proof

theorem pack4_toNat (a b c d : Nibble) :
    (pack4 a b c d).toNat = ((a.toNat * 16 + b.toNat) * 16 + c.toNat) * 16 + d.toNat := by
  have ha := a.isLt
  have hb := b.isLt
  have hc := c.isLt
  have hd := d.isLt
  simp only [pack4, BitVec.toNat_append]
  rw [← Nat.shiftLeft_add_eq_or_of_lt hd, ← Nat.shiftLeft_add_eq_or_of_lt hc, ← Nat.shiftLeft_add_eq_or_of_lt hb]
  simp only [Nat.shiftLeft_eq]

theorem packXKk_toNat (op x : Nibble) (kk : Byte) :
    (packXKk op x kk).toNat = (op.toNat * 16 + x.toNat) * 256 + kk.toNat := by
  have hx := x.isLt
  have hk := kk.isLt
  simp only [packXKk, BitVec.toNat_append]
  rw [← Nat.shiftLeft_add_eq_or_of_lt hk, ← Nat.shiftLeft_add_eq_or_of_lt hx]
  simp only [Nat.shiftLeft_eq]

theorem packAddr_toNat (op : Nibble) (a : Addr) : (packAddr op a).toNat = op.toNat * 4096 + a.toNat := by
  have ha := a.isLt
  simp only [packAddr, BitVec.toNat_append]
  rw [← Nat.shiftLeft_add_eq_or_of_lt ha]
  simp only [Nat.shiftLeft_eq]

theorem fieldOp_toNat (w : Word) : (fieldOp w).toNat = w.toNat / 4096 := by
  have := w.isLt
  simp only [fieldOp, BitVec.extractLsb'_toNat, Nat.shiftRight_eq_div_pow]; omega
theorem fieldX_toNat (w : Word) : (fieldX w).toNat = w.toNat / 256 % 16 := by
  simp [fieldX, Nat.shiftRight_eq_div_pow]
theorem fieldY_toNat (w : Word) : (fieldY w).toNat = w.toNat / 16 % 16 := by
  simp [fieldY, Nat.shiftRight_eq_div_pow]
theorem fieldN_toNat (w : Word) : (fieldN w).toNat = w.toNat % 16 := by simp [fieldN]
theorem fieldKk_toNat (w : Word) : (fieldKk w).toNat = w.toNat % 256 := by simp [fieldKk]
theorem fieldAddr_toNat (w : Word) : (fieldAddr w).toNat = w.toNat % 4096 := by simp [fieldAddr]

@[simp] theorem fieldOp_pack4 (a b c d : Nibble) : fieldOp (pack4 a b c d) = a := by
  apply BitVec.eq_of_toNat_eq; rw [fieldOp_toNat, pack4_toNat]; omega
@[simp] theorem fieldX_pack4 (a b c d : Nibble) : fieldX (pack4 a b c d) = b := by
  apply BitVec.eq_of_toNat_eq; rw [fieldX_toNat, pack4_toNat]; omega
@[simp] theorem fieldY_pack4 (a b c d : Nibble) : fieldY (pack4 a b c d) = c := by
  apply BitVec.eq_of_toNat_eq; rw [fieldY_toNat, pack4_toNat]; omega
@[simp] theorem fieldN_pack4 (a b c d : Nibble) : fieldN (pack4 a b c d) = d := by
  apply BitVec.eq_of_toNat_eq; rw [fieldN_toNat, pack4_toNat]; omega

@[simp] theorem fieldOp_packXKk (op x : Nibble) (kk : Byte) : fieldOp (packXKk op x kk) = op := by
  apply BitVec.eq_of_toNat_eq; rw [fieldOp_toNat, packXKk_toNat]; omega
@[simp] theorem fieldX_packXKk (op x : Nibble) (kk : Byte) : fieldX (packXKk op x kk) = x := by
  apply BitVec.eq_of_toNat_eq; rw [fieldX_toNat, packXKk_toNat]; omega
@[simp] theorem fieldKk_packXKk (op x : Nibble) (kk : Byte) : fieldKk (packXKk op x kk) = kk := by
  apply BitVec.eq_of_toNat_eq; rw [fieldKk_toNat, packXKk_toNat]; omega

@[simp] theorem fieldOp_packAddr (op : Nibble) (a : Addr) : fieldOp (packAddr op a) = op := by
  apply BitVec.eq_of_toNat_eq; rw [fieldOp_toNat, packAddr_toNat]; omega
@[simp] theorem fieldAddr_packAddr (op : Nibble) (a : Addr) : fieldAddr (packAddr op a) = a := by
  apply BitVec.eq_of_toNat_eq; rw [fieldAddr_toNat, packAddr_toNat]; omega

/-- A word is its four nibbles. -/
theorem pack4_fields (w : Word) : pack4 (fieldOp w) (fieldX w) (fieldY w) (fieldN w) = w := by
  apply BitVec.eq_of_toNat_eq
  rw [pack4_toNat, fieldOp_toNat, fieldX_toNat, fieldY_toNat, fieldN_toNat]; omega
/-- A word is its family, x and kk. -/
theorem packXKk_fields (w : Word) : packXKk (fieldOp w) (fieldX w) (fieldKk w) = w := by
  apply BitVec.eq_of_toNat_eq
  rw [packXKk_toNat, fieldOp_toNat, fieldX_toNat, fieldKk_toNat]; omega
/-- A word is its family and addr. -/
theorem packAddr_fields (w : Word) : packAddr (fieldOp w) (fieldAddr w) = w := by
  apply BitVec.eq_of_toNat_eq
  rw [packAddr_toNat, fieldOp_toNat, fieldAddr_toNat]; omega

/-- The two bytes of a word, joined, are the word (R70). -/
@[simp] theorem joinWord_bytes (w : Word) : joinWord (w.extractLsb' 8 8) (w.extractLsb' 0 8) = w := by
  apply BitVec.eq_of_toNat_eq
  have hw := w.isLt
  have hl := (w.extractLsb' 0 8).isLt
  simp only [joinWord, BitVec.toNat_append]
  rw [← Nat.shiftLeft_add_eq_or_of_lt hl]
  simp only [BitVec.extractLsb'_toNat, Nat.shiftRight_eq_div_pow, Nat.shiftLeft_eq]
  omega

end Sys2Proof
end

