-- ==== Sys2Proof/Laws/Display.lean ====
section
/-! SUPPORT. The rasterizer: a whole drawing pixel by pixel, and its collision (43_display.md R160 to R163). -/

namespace Sys2Proof.Machine

theorem pixel_setPixel (d : Display) (r r' : Fin 32) (c c' : Fin 64) (b : Bool) :
    pixel (setPixel d r c b) r' c' = if r' = r ∧ c' = c then b else pixel d r' c' := by
  unfold pixel setPixel
  simp only [Vector.getElem_set]
  by_cases hr : r' = r
  · subst hr
    by_cases hc : c' = c
    · subst hc; simp
    · have : ¬ c.val = c'.val := fun e => hc (Fin.ext e.symm)
      simp [hc, this]
  · have : ¬ r.val = r'.val := fun e => hr (Fin.ext e.symm)
    simp [hr, this]

@[simp] theorem pixel_blankDisplay (r : Fin 32) (c : Fin 64) : pixel blankDisplay r c = false := by
  simp [pixel, blankDisplay]

/-! ### One bit, one row, all rows -/

theorem pixel_drawBit (a : Raster) (r r' : Fin 32) (c c' : Fin 64) (bit : Bool) :
    pixel (drawBit a r c bit).disp r' c' = (pixel a.disp r' c' ^^ (decide (r' = r) && decide (c' = c) && bit)) := by
  unfold drawBit
  split
  · rename_i h
    rw [pixel_setPixel, h]
    by_cases hr : r' = r <;> by_cases hc : c' = c <;> simp [hr, hc]
  · rename_i h; simp [h]

theorem collide_drawBit (a : Raster) (r : Fin 32) (c : Fin 64) (bit : Bool) :
    (drawBit a r c bit).collide = (a.collide || (bit && pixel a.disp r c)) := by
  unfold drawBit; split <;> rename_i h <;> simp [h]

/-- The columns listed of one sprite byte: each pixel of the row is flipped where its bit is 1. -/
theorem pixel_drawCols (x0 : Nat) (row : Fin 32) (byte : Byte) (cs : List Nat) (a : Raster)
    (hn : cs.Pairwise fun j k => wrapCol x0 j ≠ wrapCol x0 k) (r : Fin 32) (c : Fin 64) :
    pixel (drawCols x0 row byte a cs).disp r c =
      (pixel a.disp r c ^^ (decide (r = row) && cs.any fun k => decide (c = wrapCol x0 k) && byte.getLsbD (7 - k))) := by
  induction cs generalizing a with
  | nil => simp [drawCols]
  | cons k rest ih =>
    rw [List.pairwise_cons] at hn
    rw [drawCols, ih _ hn.2, pixel_drawBit, List.any_cons]
    by_cases hr : r = row
    · by_cases hc : c = wrapCol x0 k
      · have : (rest.any fun k => decide (c = wrapCol x0 k) && byte.getLsbD (7 - k)) = false := by
          rw [List.any_eq_false]
          intro j hj
          simp [hc, hn.1 j hj]
        rw [this, decide_eq_true hr, decide_eq_true hc]; simp
      · simp [hr, hc]
    · simp [hr]

/-- The columns listed of one sprite byte collide where a bit is 1 on a pixel that was set. -/
theorem collide_drawCols (x0 : Nat) (row : Fin 32) (byte : Byte) (cs : List Nat) (a : Raster)
    (hn : cs.Pairwise fun j k => wrapCol x0 j ≠ wrapCol x0 k) :
    (drawCols x0 row byte a cs).collide =
      (a.collide || cs.any fun k => byte.getLsbD (7 - k) && pixel a.disp row (wrapCol x0 k)) := by
  induction cs generalizing a with
  | nil => simp [drawCols]
  | cons k rest ih =>
    rw [List.pairwise_cons] at hn
    rw [drawCols, ih _ hn.2, collide_drawBit, List.any_cons, ← Bool.or_assoc]
    congr 1
    rw [Bool.eq_iff_iff]
    simp only [List.any_eq_true]
    refine ⟨fun ⟨j, hj, h⟩ => ⟨j, hj, ?_⟩, fun ⟨j, hj, h⟩ => ⟨j, hj, ?_⟩⟩ <;>
    · simpa [pixel_drawBit, (hn.1 j hj).symm] using h

/-- Eight neighbouring columns are eight different ones (R162: no pixel is touched twice). -/
theorem wrapCol_range8 (x0 : Nat) : (List.range 8).Pairwise fun j k => wrapCol x0 j ≠ wrapCol x0 k := by
  refine (List.pairwise_lt_range (n := 8)).imp_of_mem fun {j k} hj hk hlt e => ?_
  rw [List.mem_range] at hj hk
  have := congrArg Fin.val e
  simp only [wrapCol] at this
  omega

/-- The bit of a byte that falls on a column, forwards and backwards. -/
theorem any_wrapCol (x0 : Nat) (hx : x0 < 64) (byte : Byte) (c : Fin 64) :
    ((List.range 8).any fun k => decide (c = wrapCol x0 k) && byte.getLsbD (7 - k)) =
      (decide ((c.val + 64 - x0) % 64 < 8) && byte.getLsbD (7 - (c.val + 64 - x0) % 64)) := by
  have hc := c.isLt
  rw [Bool.eq_iff_iff]
  simp only [List.any_eq_true, List.mem_range, Bool.and_eq_true, decide_eq_true_eq]
  constructor
  · rintro ⟨k, hk, e, hb⟩
    have e' : c.val = (x0 + k) % 64 := congrArg Fin.val e
    have : (c.val + 64 - x0) % 64 = k := by omega
    rw [this]; exact ⟨hk, hb⟩
  · rintro ⟨hk, hb⟩
    exact ⟨_, hk, Fin.ext (by simp only [wrapCol]; omega), hb⟩

theorem getD_cons_sub (byte : Byte) (rest : List Byte) (n : Nat) (hn : n ≠ 0) :
    (byte :: rest).getD n 0 = rest.getD (n - 1) 0 := by
  cases n with
  | zero => exact absurd rfl hn
  | succ n => rfl

/-- The rows from number `n` on: each pixel is flipped where the sprite bit on it is 1. -/
theorem pixel_drawRows (x0 y0 : Nat) (hx : x0 < 64) (hy : y0 < 32) (rows : List Byte) (n : Nat) (a : Raster)
    (hl : n + rows.length ≤ 32) (r : Fin 32) (c : Fin 64) :
    pixel (drawRows x0 y0 n a rows).disp r c =
      (pixel a.disp r c ^^ (decide (n ≤ (r.val + 32 - y0) % 32) && decide ((c.val + 64 - x0) % 64 < 8) &&
        (rows.getD ((r.val + 32 - y0) % 32 - n) 0).getLsbD (7 - (c.val + 64 - x0) % 64))) := by
  induction rows generalizing n a with
  | nil => simp [drawRows]
  | cons byte rest ih =>
    rw [List.length_cons] at hl
    have hr := r.isLt
    rw [drawRows, ih (n + 1) _ (by omega), pixel_drawCols _ _ _ _ _ (wrapCol_range8 x0), any_wrapCol x0 hx]
    by_cases h : (r.val + 32 - y0) % 32 = n
    · have : r = wrapRow y0 n := Fin.ext (by simp only [wrapRow]; omega)
      have hn : ¬ n + 1 ≤ n := by omega
      rw [h, decide_eq_false hn, decide_eq_true this, decide_eq_true (Nat.le_refl n), Nat.sub_self]; simp
    · have hw : ¬ r = wrapRow y0 n := fun e => h (by have := congrArg Fin.val e; simp only [wrapRow] at this; omega)
      by_cases hle : n + 1 ≤ (r.val + 32 - y0) % 32
      · rw [getD_cons_sub _ _ _ (by omega), Nat.sub_sub, decide_eq_true hle, decide_eq_true (Nat.le_of_succ_le hle)]
        simp [hw]
      · have : ¬ n ≤ (r.val + 32 - y0) % 32 := by omega
        rw [decide_eq_false hle, decide_eq_false this]; simp [hw]

/-- A sprite drawn: each pixel is the old one, flipped where the sprite bit on it is 1 (R160, R162). -/
theorem pixel_drawSprite (d : Display) (vx vy : Byte) (rows : List Byte) (hl : rows.length ≤ 32) (r : Fin 32) (c : Fin 64) :
    pixel (drawSprite d vx vy rows).disp r c = (pixel d r c ^^ spriteBit rows (vx.toNat % 64) (vy.toNat % 32) r c) := by
  rw [drawSprite, pixel_drawRows _ _ (Nat.mod_lt _ (by decide)) (Nat.mod_lt _ (by decide)) _ _ _ (by omega)]
  simp [spriteBit]

theorem collide_drawRows (x0 y0 : Nat) (hx : x0 < 64) (hy : y0 < 32) (rows : List Byte) (n : Nat) (a : Raster)
    (hl : n + rows.length ≤ 32) :
    (drawRows x0 y0 n a rows).collide = true ↔ a.collide = true ∨ ∃ r : Fin 32, ∃ c : Fin 64,
      n ≤ (r.val + 32 - y0) % 32 ∧ (c.val + 64 - x0) % 64 < 8 ∧
      (rows.getD ((r.val + 32 - y0) % 32 - n) 0).getLsbD (7 - (c.val + 64 - x0) % 64) = true ∧ pixel a.disp r c = true := by
  induction rows generalizing n a with
  | nil => simp [drawRows]
  | cons byte rest ih =>
    rw [List.length_cons] at hl
    rw [drawRows, ih (n + 1) _ (by omega), collide_drawCols _ _ _ _ _ (wrapCol_range8 x0)]
    simp only [Bool.or_eq_true, or_assoc]
    refine or_congr_right ?_
    have hwn : (wrapRow y0 n).val = (y0 + n) % 32 := rfl
    constructor
    · rintro (h | ⟨r, c, hr, hc, hb, hp⟩)
      · simp only [List.any_eq_true, List.mem_range, Bool.and_eq_true] at h
        obtain ⟨k, hk, hb, hp⟩ := h
        have hwk : (wrapCol x0 k).val = (x0 + k) % 64 := rfl
        have h1 : ((wrapRow y0 n).val + 32 - y0) % 32 = n := by omega
        have h2 : ((wrapCol x0 k).val + 64 - x0) % 64 = k := by omega
        exact ⟨wrapRow y0 n, wrapCol x0 k, by omega, by omega, by rw [h1, h2, Nat.sub_self]; exact hb, hp⟩
      · have hlt := r.isLt
        have hw : ¬ r = wrapRow y0 n := fun e => by have := congrArg Fin.val e; omega
        refine ⟨r, c, by omega, hc, ?_, ?_⟩
        · rw [getD_cons_sub _ _ _ (by omega), Nat.sub_sub]; exact hb
        · simpa [pixel_drawCols _ _ _ _ _ (wrapCol_range8 x0), hw] using hp
    · rintro ⟨r, c, hr, hc, hb, hp⟩
      have hlt := r.isLt
      have hlc := c.isLt
      by_cases h : (r.val + 32 - y0) % 32 = n
      · left
        have e1 : r = wrapRow y0 n := Fin.ext (by omega)
        have e2 : c = wrapCol x0 ((c.val + 64 - x0) % 64) := Fin.ext (by simp only [wrapCol]; omega)
        simp only [List.any_eq_true, List.mem_range, Bool.and_eq_true]
        refine ⟨(c.val + 64 - x0) % 64, hc, ?_, ?_⟩
        · rw [h, Nat.sub_self] at hb; exact hb
        · rw [← e1, ← e2]; exact hp
      · right
        have hw : ¬ r = wrapRow y0 n := fun e => by have := congrArg Fin.val e; omega
        refine ⟨r, c, by omega, hc, ?_, ?_⟩
        · rw [getD_cons_sub _ _ _ (by omega), Nat.sub_sub] at hb; exact hb
        · simpa [pixel_drawCols _ _ _ _ _ (wrapCol_range8 x0), hw] using hp

/-- A sprite drawn collides exactly where a sprite bit 1 falls on a pixel that was set (R162, R163). -/
theorem collide_drawSprite (d : Display) (vx vy : Byte) (rows : List Byte) (hl : rows.length ≤ 32) :
    (drawSprite d vx vy rows).collide = true ↔
      ∃ r c, spriteBit rows (vx.toNat % 64) (vy.toNat % 32) r c = true ∧ pixel d r c = true := by
  rw [drawSprite, collide_drawRows _ _ (Nat.mod_lt _ (by decide)) (Nat.mod_lt _ (by decide)) _ _ _ (by omega)]
  simp [spriteBit, and_assoc]

/-- Two displays that agree on every pixel are one. -/
theorem display_ext {d e : Display} (h : ∀ r c, pixel d r c = pixel e r c) : d = e := by
  apply Vector.ext
  intro r hr
  apply Vector.ext
  intro c hc
  exact h ⟨r, hr⟩ ⟨c, hc⟩

end Sys2Proof.Machine
end

