-- ==== Sys2Proof/Laws/Memory.lean ====
section
/-! SUPPORT. Memory: reading after writing, and that every operation keeps the canonical form. -/

namespace Sys2Proof.Machine

/-! ### The list operations -/

theorem lookup_insertCell (a b : Nat) (v : Byte) (m : Memory) :
    lookup (insertCell a v m) b = if a = b then some v else lookup m b := by
  induction m with
  | nil => simp [insertCell, lookup]
  | cons c rest ih =>
    obtain ⟨c, u⟩ := c
    unfold insertCell
    split
    · simp [lookup]
    · split
      · subst c; simp only [lookup]; split <;> rfl
      · simp only [lookup, ih]; split <;> split <;> simp_all

theorem lookup_eraseCell_other {a b : Nat} (h : a ≠ b) (m : Memory) : lookup (eraseCell a m) b = lookup m b := by
  induction m with
  | nil => rfl
  | cons c rest ih =>
    obtain ⟨c, u⟩ := c
    unfold eraseCell
    split
    · subst c; simp [lookup, h]
    · simp only [lookup, ih]

theorem canonicalFrom_cons {low a : Nat} {v : Byte} {rest : Memory} :
    canonicalFrom low ((a, v) :: rest) = true ↔
      low ≤ a ∧ a < memSize ∧ v ≠ resetByte a ∧ canonicalFrom (a + 1) rest = true := by
  simp [canonicalFrom, and_assoc]

theorem canonicalFrom_mono {low low' : Nat} (hl : low' ≤ low) {m : Memory} (h : canonicalFrom low m = true) :
    canonicalFrom low' m = true := by
  cases m with
  | nil => rfl
  | cons c rest =>
    obtain ⟨a, v⟩ := c
    rw [canonicalFrom_cons] at h ⊢
    exact ⟨by omega, h.2⟩

/-- Nothing is listed below the first address of a canonical list. -/
theorem lookup_below {low a : Nat} (ha : a < low) {m : Memory} (h : canonicalFrom low m = true) : lookup m a = none := by
  induction m generalizing low with
  | nil => rfl
  | cons c rest ih =>
    obtain ⟨b, v⟩ := c
    rw [canonicalFrom_cons] at h
    rw [lookup, if_neg (by omega)]
    exact ih (by omega) h.2.2.2

theorem lookup_eraseCell_same (a : Nat) {low : Nat} {m : Memory} (h : canonicalFrom low m = true) :
    lookup (eraseCell a m) a = none := by
  induction m generalizing low with
  | nil => rfl
  | cons c rest ih =>
    obtain ⟨b, v⟩ := c
    rw [canonicalFrom_cons] at h
    unfold eraseCell
    split
    · subst b; exact lookup_below (by omega) h.2.2.2
    · rw [lookup, if_neg (fun e => by omega)]; exact ih h.2.2.2

theorem canonicalFrom_insertCell {low a : Nat} {v : Byte} {m : Memory} (hl : low ≤ a) (ha : a < memSize)
    (hv : v ≠ resetByte a) (h : canonicalFrom low m = true) : canonicalFrom low (insertCell a v m) = true := by
  induction m generalizing low with
  | nil => simp [insertCell, canonicalFrom, hl, ha, hv]
  | cons c rest ih =>
    obtain ⟨b, u⟩ := c
    have hb := canonicalFrom_cons.mp h
    unfold insertCell
    split
    · exact canonicalFrom_cons.mpr ⟨hl, ha, hv, canonicalFrom_cons.mpr ⟨by omega, hb.2⟩⟩
    · split
      · subst b; exact canonicalFrom_cons.mpr ⟨hl, ha, hv, hb.2.2.2⟩
      · exact canonicalFrom_cons.mpr ⟨hb.1, hb.2.1, hb.2.2.1, ih (by omega) hb.2.2.2⟩

theorem canonicalFrom_eraseCell (a : Nat) {low : Nat} {m : Memory} (h : canonicalFrom low m = true) :
    canonicalFrom low (eraseCell a m) = true := by
  induction m generalizing low with
  | nil => rfl
  | cons c rest ih =>
    obtain ⟨b, u⟩ := c
    have hb := canonicalFrom_cons.mp h
    unfold eraseCell
    split
    · exact canonicalFrom_mono (by omega) hb.2.2.2
    · exact canonicalFrom_cons.mpr ⟨hb.1, hb.2.1, hb.2.2.1, ih hb.2.2.2⟩

/-! ### One byte -/

/-- A write leaves every other byte as it was. -/
theorem memRead_memWrite_other (m : Memory) {a b : Nat} (v : Byte) (h : a ≠ b) :
    memRead (memWrite m a v) b = memRead m b := by
  unfold memRead memWrite
  split
  · rw [lookup_eraseCell_other h]
  · rw [lookup_insertCell, if_neg h]

/-- A read after a write to the same byte gives the value written. -/
theorem memRead_memWrite_same {m : Memory} (hm : Memory.wf m = true) (a : Nat) (v : Byte) :
    memRead (memWrite m a v) a = v := by
  unfold memRead memWrite
  split
  · rename_i hv; rw [lookup_eraseCell_same a hm, hv]; rfl
  · rw [lookup_insertCell, if_pos rfl]; rfl

theorem memWrite_wf {m : Memory} (hm : Memory.wf m = true) {a : Nat} (ha : a < memSize) (v : Byte) :
    Memory.wf (memWrite m a v) = true := by
  unfold memWrite
  split
  · exact canonicalFrom_eraseCell a hm
  · rename_i hv; exact canonicalFrom_insertCell (Nat.zero_le a) ha hv hm

/-! ### Blocks of bytes -/

theorem writeBlock_wf (bytes : List Byte) {m : Memory} (hm : Memory.wf m = true) {base : Nat}
    (h : base + bytes.length ≤ memSize) : Memory.wf (writeBlock m base bytes) = true := by
  induction bytes generalizing m base with
  | nil => exact hm
  | cons b rest ih =>
    rw [List.length_cons] at h
    exact ih (memWrite_wf hm (by omega) b) (by omega)

/-- A block write leaves the bytes outside the block as they were. -/
theorem memRead_writeBlock_outside (bytes : List Byte) (m : Memory) {base a : Nat}
    (h : a < base ∨ base + bytes.length ≤ a) : memRead (writeBlock m base bytes) a = memRead m a := by
  induction bytes generalizing m base with
  | nil => rfl
  | cons b rest ih =>
    rw [List.length_cons] at h
    rw [writeBlock, ih _ (by omega), memRead_memWrite_other _ _ (by omega)]

/-- A read inside a block just written gives the byte written there. -/
theorem memRead_writeBlock_inside (bytes : List Byte) {m : Memory} (hm : Memory.wf m = true) {base : Nat}
    (hb : base + bytes.length ≤ memSize) {k : Nat} (hk : k < bytes.length) :
    memRead (writeBlock m base bytes) (base + k) = bytes[k] := by
  induction bytes generalizing m base k with
  | nil => exact absurd hk (Nat.not_lt_zero k)
  | cons b rest ih =>
    rw [List.length_cons] at hb hk
    cases k with
    | zero => rw [writeBlock, memRead_writeBlock_outside rest _ (by omega)]; exact memRead_memWrite_same hm base b
    | succ k =>
      have hk' : k < rest.length := by omega
      have hm' := memWrite_wf hm (show base < memSize by omega) b
      rw [writeBlock, show base + (k + 1) = base + 1 + k by omega, ih hm' (by omega) hk']; rfl

@[simp] theorem readBlock_length (m : Memory) (base n : Nat) : (readBlock m base n).length = n := by
  simp [readBlock]

@[simp] theorem readBlock_getElem (m : Memory) (base n k : Nat) (h : k < (readBlock m base n).length) :
    (readBlock m base n)[k] = memRead m (base + k) := by
  simp [readBlock]

@[simp] theorem wf_nil : Memory.wf [] = true := rfl

end Sys2Proof.Machine
end

