-- ==== Sys2Proof/Laws/State.lean ====
section
/-! SUPPORT. What each named update of the state leaves in each field, so that no proof unfolds a record update. -/

namespace Sys2Proof.Machine


/-! ### writeV -/

@[simp] theorem State.writeV_v (s : State) (x : Nibble) (b : Byte) : (s.writeV x b).v = regSet s.v x b := rfl
@[simp] theorem State.writeV_i (s : State) (x : Nibble) (b : Byte) : (s.writeV x b).i = s.i := rfl
@[simp] theorem State.writeV_pc (s : State) (x : Nibble) (b : Byte) : (s.writeV x b).pc = s.pc := rfl
@[simp] theorem State.writeV_sp (s : State) (x : Nibble) (b : Byte) : (s.writeV x b).sp = s.sp := rfl
@[simp] theorem State.writeV_stack (s : State) (x : Nibble) (b : Byte) : (s.writeV x b).stack = s.stack := rfl
@[simp] theorem State.writeV_dt (s : State) (x : Nibble) (b : Byte) : (s.writeV x b).dt = s.dt := rfl
@[simp] theorem State.writeV_st (s : State) (x : Nibble) (b : Byte) : (s.writeV x b).st = s.st := rfl
@[simp] theorem State.writeV_mem (s : State) (x : Nibble) (b : Byte) : (s.writeV x b).mem = s.mem := rfl
@[simp] theorem State.writeV_disp (s : State) (x : Nibble) (b : Byte) : (s.writeV x b).disp = s.disp := rfl
@[simp] theorem State.writeV_key (s : State) (x : Nibble) (b : Byte) : (s.writeV x b).key = s.key := rfl
@[simp] theorem State.writeV_run (s : State) (x : Nibble) (b : Byte) : (s.writeV x b).run = s.run := rfl
@[simp] theorem State.writeV_haltInfo (s : State) (x : Nibble) (b : Byte) : (s.writeV x b).haltInfo = s.haltInfo := rfl
@[simp] theorem State.writeV_loaded (s : State) (x : Nibble) (b : Byte) : (s.writeV x b).loaded = s.loaded := rfl
@[simp] theorem State.writeV_pacer (s : State) (x : Nibble) (b : Byte) : (s.writeV x b).pacer = s.pacer := rfl
@[simp] theorem State.writeV_draws (s : State) (x : Nibble) (b : Byte) : (s.writeV x b).draws = s.draws := rfl

/-! ### writeKey -/

@[simp] theorem State.writeKey_v (s : State) (k : Nibble) (b : Bool) : (s.writeKey k b).v = s.v := rfl
@[simp] theorem State.writeKey_i (s : State) (k : Nibble) (b : Bool) : (s.writeKey k b).i = s.i := rfl
@[simp] theorem State.writeKey_pc (s : State) (k : Nibble) (b : Bool) : (s.writeKey k b).pc = s.pc := rfl
@[simp] theorem State.writeKey_sp (s : State) (k : Nibble) (b : Bool) : (s.writeKey k b).sp = s.sp := rfl
@[simp] theorem State.writeKey_stack (s : State) (k : Nibble) (b : Bool) : (s.writeKey k b).stack = s.stack := rfl
@[simp] theorem State.writeKey_dt (s : State) (k : Nibble) (b : Bool) : (s.writeKey k b).dt = s.dt := rfl
@[simp] theorem State.writeKey_st (s : State) (k : Nibble) (b : Bool) : (s.writeKey k b).st = s.st := rfl
@[simp] theorem State.writeKey_mem (s : State) (k : Nibble) (b : Bool) : (s.writeKey k b).mem = s.mem := rfl
@[simp] theorem State.writeKey_disp (s : State) (k : Nibble) (b : Bool) : (s.writeKey k b).disp = s.disp := rfl
@[simp] theorem State.writeKey_key (s : State) (k : Nibble) (b : Bool) : (s.writeKey k b).key = s.key.set k.toNat b k.isLt := rfl
@[simp] theorem State.writeKey_run (s : State) (k : Nibble) (b : Bool) : (s.writeKey k b).run = s.run := rfl
@[simp] theorem State.writeKey_haltInfo (s : State) (k : Nibble) (b : Bool) : (s.writeKey k b).haltInfo = s.haltInfo := rfl
@[simp] theorem State.writeKey_loaded (s : State) (k : Nibble) (b : Bool) : (s.writeKey k b).loaded = s.loaded := rfl
@[simp] theorem State.writeKey_pacer (s : State) (k : Nibble) (b : Bool) : (s.writeKey k b).pacer = s.pacer := rfl
@[simp] theorem State.writeKey_draws (s : State) (k : Nibble) (b : Bool) : (s.writeKey k b).draws = s.draws := rfl

/-! ### setI -/

@[simp] theorem State.setI_v (s : State) (w : Word) : (s.setI w).v = s.v := rfl
@[simp] theorem State.setI_i (s : State) (w : Word) : (s.setI w).i = w := rfl
@[simp] theorem State.setI_pc (s : State) (w : Word) : (s.setI w).pc = s.pc := rfl
@[simp] theorem State.setI_sp (s : State) (w : Word) : (s.setI w).sp = s.sp := rfl
@[simp] theorem State.setI_stack (s : State) (w : Word) : (s.setI w).stack = s.stack := rfl
@[simp] theorem State.setI_dt (s : State) (w : Word) : (s.setI w).dt = s.dt := rfl
@[simp] theorem State.setI_st (s : State) (w : Word) : (s.setI w).st = s.st := rfl
@[simp] theorem State.setI_mem (s : State) (w : Word) : (s.setI w).mem = s.mem := rfl
@[simp] theorem State.setI_disp (s : State) (w : Word) : (s.setI w).disp = s.disp := rfl
@[simp] theorem State.setI_key (s : State) (w : Word) : (s.setI w).key = s.key := rfl
@[simp] theorem State.setI_run (s : State) (w : Word) : (s.setI w).run = s.run := rfl
@[simp] theorem State.setI_haltInfo (s : State) (w : Word) : (s.setI w).haltInfo = s.haltInfo := rfl
@[simp] theorem State.setI_loaded (s : State) (w : Word) : (s.setI w).loaded = s.loaded := rfl
@[simp] theorem State.setI_pacer (s : State) (w : Word) : (s.setI w).pacer = s.pacer := rfl
@[simp] theorem State.setI_draws (s : State) (w : Word) : (s.setI w).draws = s.draws := rfl

/-! ### setPc -/

@[simp] theorem State.setPc_v (s : State) (w : Word) : (s.setPc w).v = s.v := rfl
@[simp] theorem State.setPc_i (s : State) (w : Word) : (s.setPc w).i = s.i := rfl
@[simp] theorem State.setPc_pc (s : State) (w : Word) : (s.setPc w).pc = w := rfl
@[simp] theorem State.setPc_sp (s : State) (w : Word) : (s.setPc w).sp = s.sp := rfl
@[simp] theorem State.setPc_stack (s : State) (w : Word) : (s.setPc w).stack = s.stack := rfl
@[simp] theorem State.setPc_dt (s : State) (w : Word) : (s.setPc w).dt = s.dt := rfl
@[simp] theorem State.setPc_st (s : State) (w : Word) : (s.setPc w).st = s.st := rfl
@[simp] theorem State.setPc_mem (s : State) (w : Word) : (s.setPc w).mem = s.mem := rfl
@[simp] theorem State.setPc_disp (s : State) (w : Word) : (s.setPc w).disp = s.disp := rfl
@[simp] theorem State.setPc_key (s : State) (w : Word) : (s.setPc w).key = s.key := rfl
@[simp] theorem State.setPc_run (s : State) (w : Word) : (s.setPc w).run = s.run := rfl
@[simp] theorem State.setPc_haltInfo (s : State) (w : Word) : (s.setPc w).haltInfo = s.haltInfo := rfl
@[simp] theorem State.setPc_loaded (s : State) (w : Word) : (s.setPc w).loaded = s.loaded := rfl
@[simp] theorem State.setPc_pacer (s : State) (w : Word) : (s.setPc w).pacer = s.pacer := rfl
@[simp] theorem State.setPc_draws (s : State) (w : Word) : (s.setPc w).draws = s.draws := rfl

/-! ### advancePc -/

@[simp] theorem State.advancePc_v (s : State) : (s.advancePc).v = s.v := rfl
@[simp] theorem State.advancePc_i (s : State) : (s.advancePc).i = s.i := rfl
@[simp] theorem State.advancePc_pc (s : State) : (s.advancePc).pc = s.pc + 2 := rfl
@[simp] theorem State.advancePc_sp (s : State) : (s.advancePc).sp = s.sp := rfl
@[simp] theorem State.advancePc_stack (s : State) : (s.advancePc).stack = s.stack := rfl
@[simp] theorem State.advancePc_dt (s : State) : (s.advancePc).dt = s.dt := rfl
@[simp] theorem State.advancePc_st (s : State) : (s.advancePc).st = s.st := rfl
@[simp] theorem State.advancePc_mem (s : State) : (s.advancePc).mem = s.mem := rfl
@[simp] theorem State.advancePc_disp (s : State) : (s.advancePc).disp = s.disp := rfl
@[simp] theorem State.advancePc_key (s : State) : (s.advancePc).key = s.key := rfl
@[simp] theorem State.advancePc_run (s : State) : (s.advancePc).run = s.run := rfl
@[simp] theorem State.advancePc_haltInfo (s : State) : (s.advancePc).haltInfo = s.haltInfo := rfl
@[simp] theorem State.advancePc_loaded (s : State) : (s.advancePc).loaded = s.loaded := rfl
@[simp] theorem State.advancePc_pacer (s : State) : (s.advancePc).pacer = s.pacer := rfl
@[simp] theorem State.advancePc_draws (s : State) : (s.advancePc).draws = s.draws := rfl

/-! ### skipIf -/

@[simp] theorem State.skipIf_v (s : State) (c : Bool) : (s.skipIf c).v = s.v := rfl
@[simp] theorem State.skipIf_i (s : State) (c : Bool) : (s.skipIf c).i = s.i := rfl
@[simp] theorem State.skipIf_pc (s : State) (c : Bool) : (s.skipIf c).pc = if c then s.pc + 4 else s.pc + 2 := rfl
@[simp] theorem State.skipIf_sp (s : State) (c : Bool) : (s.skipIf c).sp = s.sp := rfl
@[simp] theorem State.skipIf_stack (s : State) (c : Bool) : (s.skipIf c).stack = s.stack := rfl
@[simp] theorem State.skipIf_dt (s : State) (c : Bool) : (s.skipIf c).dt = s.dt := rfl
@[simp] theorem State.skipIf_st (s : State) (c : Bool) : (s.skipIf c).st = s.st := rfl
@[simp] theorem State.skipIf_mem (s : State) (c : Bool) : (s.skipIf c).mem = s.mem := rfl
@[simp] theorem State.skipIf_disp (s : State) (c : Bool) : (s.skipIf c).disp = s.disp := rfl
@[simp] theorem State.skipIf_key (s : State) (c : Bool) : (s.skipIf c).key = s.key := rfl
@[simp] theorem State.skipIf_run (s : State) (c : Bool) : (s.skipIf c).run = s.run := rfl
@[simp] theorem State.skipIf_haltInfo (s : State) (c : Bool) : (s.skipIf c).haltInfo = s.haltInfo := rfl
@[simp] theorem State.skipIf_loaded (s : State) (c : Bool) : (s.skipIf c).loaded = s.loaded := rfl
@[simp] theorem State.skipIf_pacer (s : State) (c : Bool) : (s.skipIf c).pacer = s.pacer := rfl
@[simp] theorem State.skipIf_draws (s : State) (c : Bool) : (s.skipIf c).draws = s.draws := rfl

/-! ### raiseFatal -/

@[simp] theorem State.raiseFatal_v (s : State) (c : HaltCause) (p w a : Word) : (s.raiseFatal c p w a).v = s.v := rfl
@[simp] theorem State.raiseFatal_i (s : State) (c : HaltCause) (p w a : Word) : (s.raiseFatal c p w a).i = s.i := rfl
@[simp] theorem State.raiseFatal_pc (s : State) (c : HaltCause) (p w a : Word) : (s.raiseFatal c p w a).pc = s.pc := rfl
@[simp] theorem State.raiseFatal_sp (s : State) (c : HaltCause) (p w a : Word) : (s.raiseFatal c p w a).sp = s.sp := rfl
@[simp] theorem State.raiseFatal_stack (s : State) (c : HaltCause) (p w a : Word) : (s.raiseFatal c p w a).stack = s.stack := rfl
@[simp] theorem State.raiseFatal_dt (s : State) (c : HaltCause) (p w a : Word) : (s.raiseFatal c p w a).dt = s.dt := rfl
@[simp] theorem State.raiseFatal_st (s : State) (c : HaltCause) (p w a : Word) : (s.raiseFatal c p w a).st = s.st := rfl
@[simp] theorem State.raiseFatal_mem (s : State) (c : HaltCause) (p w a : Word) : (s.raiseFatal c p w a).mem = s.mem := rfl
@[simp] theorem State.raiseFatal_disp (s : State) (c : HaltCause) (p w a : Word) : (s.raiseFatal c p w a).disp = s.disp := rfl
@[simp] theorem State.raiseFatal_key (s : State) (c : HaltCause) (p w a : Word) : (s.raiseFatal c p w a).key = s.key := rfl
@[simp] theorem State.raiseFatal_run (s : State) (c : HaltCause) (p w a : Word) : (s.raiseFatal c p w a).run = { mode := .halted, waitReg := 0, haltCause := c } := rfl
@[simp] theorem State.raiseFatal_haltInfo (s : State) (c : HaltCause) (p w a : Word) : (s.raiseFatal c p w a).haltInfo = { pc := p, word := w, addr := a } := rfl
@[simp] theorem State.raiseFatal_loaded (s : State) (c : HaltCause) (p w a : Word) : (s.raiseFatal c p w a).loaded = s.loaded := rfl
@[simp] theorem State.raiseFatal_pacer (s : State) (c : HaltCause) (p w a : Word) : (s.raiseFatal c p w a).pacer = s.pacer := rfl
@[simp] theorem State.raiseFatal_draws (s : State) (c : HaltCause) (p w a : Word) : (s.raiseFatal c p w a).draws = s.draws := rfl

/-! ### setFlag -/

@[simp] theorem State.setFlag_v (s : State) (b : Bool) : (s.setFlag b).v = regSet s.v 0xF (flagByte b) := rfl
@[simp] theorem State.setFlag_i (s : State) (b : Bool) : (s.setFlag b).i = s.i := rfl
@[simp] theorem State.setFlag_pc (s : State) (b : Bool) : (s.setFlag b).pc = s.pc := rfl
@[simp] theorem State.setFlag_sp (s : State) (b : Bool) : (s.setFlag b).sp = s.sp := rfl
@[simp] theorem State.setFlag_stack (s : State) (b : Bool) : (s.setFlag b).stack = s.stack := rfl
@[simp] theorem State.setFlag_dt (s : State) (b : Bool) : (s.setFlag b).dt = s.dt := rfl
@[simp] theorem State.setFlag_st (s : State) (b : Bool) : (s.setFlag b).st = s.st := rfl
@[simp] theorem State.setFlag_mem (s : State) (b : Bool) : (s.setFlag b).mem = s.mem := rfl
@[simp] theorem State.setFlag_disp (s : State) (b : Bool) : (s.setFlag b).disp = s.disp := rfl
@[simp] theorem State.setFlag_key (s : State) (b : Bool) : (s.setFlag b).key = s.key := rfl
@[simp] theorem State.setFlag_run (s : State) (b : Bool) : (s.setFlag b).run = s.run := rfl
@[simp] theorem State.setFlag_haltInfo (s : State) (b : Bool) : (s.setFlag b).haltInfo = s.haltInfo := rfl
@[simp] theorem State.setFlag_loaded (s : State) (b : Bool) : (s.setFlag b).loaded = s.loaded := rfl
@[simp] theorem State.setFlag_pacer (s : State) (b : Bool) : (s.setFlag b).pacer = s.pacer := rfl
@[simp] theorem State.setFlag_draws (s : State) (b : Bool) : (s.setFlag b).draws = s.draws := rfl

/-! ### writeFlagged -/

@[simp] theorem State.writeFlagged_v (s : State) (x : Nibble) (r : Byte) (f : Bool) : (s.writeFlagged x r f).v = regSet (regSet s.v x r) 0xF (flagByte f) := rfl
@[simp] theorem State.writeFlagged_i (s : State) (x : Nibble) (r : Byte) (f : Bool) : (s.writeFlagged x r f).i = s.i := rfl
@[simp] theorem State.writeFlagged_pc (s : State) (x : Nibble) (r : Byte) (f : Bool) : (s.writeFlagged x r f).pc = s.pc := rfl
@[simp] theorem State.writeFlagged_sp (s : State) (x : Nibble) (r : Byte) (f : Bool) : (s.writeFlagged x r f).sp = s.sp := rfl
@[simp] theorem State.writeFlagged_stack (s : State) (x : Nibble) (r : Byte) (f : Bool) : (s.writeFlagged x r f).stack = s.stack := rfl
@[simp] theorem State.writeFlagged_dt (s : State) (x : Nibble) (r : Byte) (f : Bool) : (s.writeFlagged x r f).dt = s.dt := rfl
@[simp] theorem State.writeFlagged_st (s : State) (x : Nibble) (r : Byte) (f : Bool) : (s.writeFlagged x r f).st = s.st := rfl
@[simp] theorem State.writeFlagged_mem (s : State) (x : Nibble) (r : Byte) (f : Bool) : (s.writeFlagged x r f).mem = s.mem := rfl
@[simp] theorem State.writeFlagged_disp (s : State) (x : Nibble) (r : Byte) (f : Bool) : (s.writeFlagged x r f).disp = s.disp := rfl
@[simp] theorem State.writeFlagged_key (s : State) (x : Nibble) (r : Byte) (f : Bool) : (s.writeFlagged x r f).key = s.key := rfl
@[simp] theorem State.writeFlagged_run (s : State) (x : Nibble) (r : Byte) (f : Bool) : (s.writeFlagged x r f).run = s.run := rfl
@[simp] theorem State.writeFlagged_haltInfo (s : State) (x : Nibble) (r : Byte) (f : Bool) : (s.writeFlagged x r f).haltInfo = s.haltInfo := rfl
@[simp] theorem State.writeFlagged_loaded (s : State) (x : Nibble) (r : Byte) (f : Bool) : (s.writeFlagged x r f).loaded = s.loaded := rfl
@[simp] theorem State.writeFlagged_pacer (s : State) (x : Nibble) (r : Byte) (f : Bool) : (s.writeFlagged x r f).pacer = s.pacer := rfl
@[simp] theorem State.writeFlagged_draws (s : State) (x : Nibble) (r : Byte) (f : Bool) : (s.writeFlagged x r f).draws = s.draws := rfl

end Sys2Proof.Machine
end

