-- ==== Sys2Proof/Laws/Ops.lean ====
section
/-! SUPPORT. One law per shared operation: what it can do. -/

namespace Sys2Proof.Machine

/-! ### The register file -/

/-- A register read after a register write (R9). -/
theorem regGet_regSet (v : Regs) (x r : Nibble) (b : Byte) :
    regGet (regSet v x b) r = if r = x then b else regGet v r := by
  unfold regGet regSet
  rw [Vector.getElem_set]
  by_cases h : r = x
  · subst h; simp
  · rw [if_neg (fun e => h (BitVec.eq_of_toNat_eq e.symm)), if_neg h]

@[simp] theorem State.readV_writeV (s : State) (x r : Nibble) (b : Byte) :
    (s.writeV x b).readV r = if r = x then b else s.readV r := regGet_regSet s.v x r b

@[simp] theorem State.readV_advancePc (s : State) (r : Nibble) : s.advancePc.readV r = s.readV r := rfl
@[simp] theorem State.readV_setPc (s : State) (w : Word) (r : Nibble) : (s.setPc w).readV r = s.readV r := rfl
@[simp] theorem State.readV_skipIf (s : State) (c : Bool) (r : Nibble) : (s.skipIf c).readV r = s.readV r := rfl
@[simp] theorem State.readV_setI (s : State) (w : Word) (r : Nibble) : (s.setI w).readV r = s.readV r := rfl
@[simp] theorem State.readV_raiseFatal (s : State) (c : HaltCause) (p w a : Word) (r : Nibble) :
    (s.raiseFatal c p w a).readV r = s.readV r := rfl

/-- A result and its flag: the flag is what VF ends with, whatever x is (R120). -/
@[simp] theorem State.readV_writeFlagged (s : State) (x r : Nibble) (b : Byte) (f : Bool) :
    (s.writeFlagged x b f).readV r = if r = 0xF then flagByte f else if r = x then b else s.readV r := by
  simp [State.writeFlagged, State.setFlag]

/-- A key read after a key event. -/
theorem State.readKey_writeKey (s : State) (k j : Nibble) (b : Bool) :
    (s.writeKey k b).readKey j = if j = k then b else s.readKey j := by
  unfold State.readKey State.writeKey
  dsimp only
  rw [Vector.getElem_set]
  by_cases h : j = k
  · subst h; simp
  · rw [if_neg (fun e => h (BitVec.eq_of_toNat_eq e.symm)), if_neg h]

/-! ### Ranges and checks (R52, R140) -/

/-- A range is in bounds exactly when its last address is at most 0xFFF. -/
theorem rangeFault_eq_none {base : Word} {k : Nat} : rangeFault base k = none ↔ base.toNat + k ≤ 0xFFF := by
  unfold rangeFault; split <;> simp <;> omega

/-- The address reported is the lowest one of the range above 0xFFF. -/
theorem rangeFault_eq_some {base : Word} {k : Nat} {a : Word} :
    rangeFault base k = some a ↔ base.toNat + k > 0xFFF ∧ a.toNat = max base.toNat 0x1000 := by
  unfold rangeFault
  split
  · rename_i h
    simp only [Option.some.injEq, h, true_and]
    split
    · constructor
      · rintro rfl; omega
      · intro e; apply BitVec.eq_of_toNat_eq; omega
    · constructor
      · rintro rfl; simp; omega
      · intro e; apply BitVec.eq_of_toNat_eq; simp; omega
  · rename_i h; simp [h]

/-- A checked effect is the fatal error or the effect, nothing between. -/
theorem State.checked_cases (s : State) (fault : Option Word) (i : Instr) (effect : State) :
    (∃ a, fault = some a ∧ s.checked fault i effect = s.raiseFatal .outOfBoundsAccess s.pc (encode i) a) ∨
    (fault = none ∧ s.checked fault i effect = effect) := by
  cases fault with
  | none => exact .inr ⟨rfl, rfl⟩
  | some a => exact .inl ⟨a, rfl, rfl⟩

/-! ### The stack (R24) -/

/-- A slot read after a slot write: the write lands where the stack has the slot. -/
theorem slot_set (s : State) (j k : Nat) (w : Word) (sp : Nat) :
    ({ s with stack := s.stack.set j w, sp := sp } : State).slot k =
      if k = j ∧ j < s.stack.length then w else s.slot k := by
  simp only [State.slot, List.getD_eq_getElem?_getD, List.getElem?_set]
  by_cases h : j = k
  · subst h
    by_cases hl : j < s.stack.length
    · simp [hl]
    · simp [hl]
  · simp [h, Ne.symm h]

/-- A push is StackOverflow at a full stack, and otherwise writes the slot SP names and moves SP up by one. -/
theorem State.push_cases (s : State) (depth : Nat) (w : Word) (i : Instr) (after : State → State) :
    (s.sp = depth ∧ s.push depth w i after = s.raiseFatal .stackOverflow s.pc (encode i) 0) ∨
    (s.sp ≠ depth ∧ s.push depth w i after = after { s with stack := s.stack.set s.sp w, sp := s.sp + 1 }) := by
  by_cases h : s.sp = depth
  · exact .inl ⟨h, if_pos h⟩
  · exact .inr ⟨h, if_neg h⟩

/-- A pop is StackUnderflow at an empty stack, and otherwise gives the top slot and moves SP down by one. -/
theorem State.pop_cases (s : State) (i : Instr) (after : Word → State → State) :
    (s.sp = 0 ∧ s.pop i after = s.raiseFatal .stackUnderflow s.pc (encode i) 0) ∨
    (∃ n, s.sp = n + 1 ∧ s.pop i after = after (s.slot n) { s with sp := n }) := by
  unfold State.pop
  split
  · rename_i h; exact .inl ⟨h, rfl⟩
  · rename_i n h; exact .inr ⟨n, h, rfl⟩

/-! ### The register block (R145, R146) -/

@[simp] theorem blockOut_length (v : Regs) (x : Nibble) : (blockOut v x).length = x.toNat + 1 := by
  have := x.isLt
  simp [blockOut]; omega

/-- Byte `k` of the stored block is V[k]. -/
theorem blockOut_getElem (v : Regs) (x : Nibble) (k : Nat) (h : k < (blockOut v x).length) :
    (blockOut v x)[k] = regGet v (BitVec.ofNat 4 k) := by
  have hx := x.isLt
  have hk : k < 16 := by rw [blockOut_length] at h; omega
  simp [blockOut, regGet, Nat.mod_eq_of_lt hk]

theorem regGet_blockInFrom (bytes : List Byte) (v : Regs) (k : Nat) (r : Nibble) :
    regGet (blockInFrom v k bytes) r =
      if h : k ≤ r.toNat ∧ r.toNat < k + bytes.length then bytes[r.toNat - k] else regGet v r := by
  induction bytes generalizing v k with
  | nil => rw [dif_neg (by simp)]; rfl
  | cons b rest ih =>
    rw [blockInFrom, ih]
    by_cases hk : k = r.toNat
    · subst hk
      rw [dif_neg (by omega), dif_pos (by simp)]
      simp [regGet]
    · have hv : regGet (v.setIfInBounds k b) r = regGet v r := by
        unfold regGet; rw [Vector.getElem_setIfInBounds]; simp [hk]
      by_cases hr : k + 1 ≤ r.toNat ∧ r.toNat < k + 1 + rest.length
      · rw [dif_pos hr, dif_pos (by simp; omega)]
        have : r.toNat - k = (r.toNat - (k + 1)) + 1 := by omega
        simp [this]
      · rw [dif_neg hr, hv, dif_neg (by simp; omega)]

/-- A loaded block: V[r] is byte r of it, and a register past the block is as it was. -/
theorem regGet_blockIn (bytes : List Byte) (v : Regs) (r : Nibble) :
    regGet (blockIn v bytes) r = if h : r.toNat < bytes.length then bytes[r.toNat] else regGet v r := by
  rw [blockIn, regGet_blockInFrom]
  by_cases h : r.toNat < bytes.length
  · rw [dif_pos ⟨Nat.zero_le _, by omega⟩, dif_pos h]; rfl
  · rw [dif_neg (by omega), dif_neg h]

/-! ### The key index (R170) -/

theorem keyIndex_eq_none {b : Byte} : keyIndex b = none ↔ b.toNat > 0xF := by
  unfold keyIndex; split <;> simp_all

theorem keyIndex_eq_some {b : Byte} {k : Nibble} : keyIndex b = some k ↔ b.toNat = k.toNat := by
  have hk := k.isLt
  unfold keyIndex
  split
  · simp; omega
  · rename_i h
    simp only [Option.some.injEq]
    constructor
    · rintro rfl; simp; omega
    · intro e; apply BitVec.eq_of_toNat_eq; simp; omega

end Sys2Proof.Machine
end

