-- ==== Sys2Proof/Laws/Step.lean ====
section
/-! SUPPORT. The start of a step, the events by run mode, and the vocabulary of frames. -/

namespace Sys2Proof.Machine

/-- Everything the start of a step can come to (R41, R71, R77, R83). -/
theorem startStepIn_cases (strict : Bool) (s : State) :
    (s.run.mode ≠ .running ∧ startStepIn strict s = .settled s) ∨
    (s.run.mode = .running ∧ s.pc.toNat > 0xFFE ∧ ∃ a : Word, a.toNat = max s.pc.toNat 0x1000 ∧
      startStepIn strict s = .settled (s.raiseFatal .outOfBoundsAccess s.pc 0 a)) ∨
    (s.run.mode = .running ∧ s.pc.toNat ≤ 0xFFE ∧ decodeWordIn strict s.fetchWord = none ∧
      startStepIn strict s = .settled (s.raiseFatal .unknownOpcode s.pc s.fetchWord 0)) ∨
    (s.run.mode = .running ∧ s.pc.toNat ≤ 0xFFE ∧ ∃ i, decodeWordIn strict s.fetchWord = some i ∧
      startStepIn strict s = .run i) := by
  unfold startStepIn fetchFault
  cases hm : s.run.mode with
  | waitKey => simp
  | halted => simp
  | running =>
    by_cases h : s.pc.toNat > 0xFFE
    · refine .inr (.inl ⟨rfl, h, if s.pc.toNat > 0xFFF then s.pc else 0x1000, ?_, by simp only [if_pos h]⟩)
      split
      · omega
      · simp; omega
    · cases hd : decodeWordIn strict s.fetchWord with
      | none => exact .inr (.inr (.inl ⟨rfl, by omega, rfl, by simp only [if_neg h]⟩))
      | some i => exact .inr (.inr (.inr ⟨rfl, by omega, i, rfl, by simp only [if_neg h]⟩))

/-! ### Events by run mode -/

theorem timerTick_halted {s : State} (h : s.run.mode = .halted) : timerTick s = s := by
  simp [timerTick, h]

theorem timerTick_counting {s : State} (h : s.run.mode ≠ .halted) :
    timerTick s = { s with dt := countDown s.dt, st := countDown s.st } := by
  unfold timerTick; split <;> simp_all

theorem keyDown_waiting {s : State} (k : Nibble) (h : s.run.mode = .waitKey) :
    keyDown k s = (s.writeKey k true).resume k := by
  simp [keyDown, h]

theorem keyDown_not_waiting {s : State} (k : Nibble) (h : s.run.mode ≠ .waitKey) : keyDown k s = s.writeKey k true := by
  unfold keyDown; split <;> simp_all

/-- A timer counts down by one and stays at 0. -/
theorem countDown_toNat (b : Byte) : (countDown b).toNat = b.toNat - 1 := by
  have := b.isLt
  unfold countDown
  split
  · rw [BitVec.toNat_sub]; simp; omega
  · omega

/-! ### Placing a word -/

/-- A word placed where memory reaches is the word the next step fetches. -/
theorem fetchWord_placeWord {s : State} (hm : Memory.wf s.mem = true) (hp : s.pc.toNat ≤ 0xFFE) (w : Word) :
    (s.placeWord w).fetchWord = w := by
  have hb : s.pc.toNat + (wordBytes w).length ≤ memSize := by simp [wordBytes, memSize]; omega
  have h0 := memRead_writeBlock_inside (wordBytes w) hm hb (k := 0) (by simp [wordBytes])
  have h1 := memRead_writeBlock_inside (wordBytes w) hm hb (k := 1) (by simp [wordBytes])
  simp only [State.fetchWord, State.readMem, State.placeWord]
  rw [Nat.add_zero] at h0
  rw [h0, h1]
  exact joinWord_bytes w

/-! ### Frames -/

theorem KeepsAllBut.refl (l : List Part) (s : State) : KeepsAllBut l s s := by
  intro p _; cases p <;> simp [SamePart]

theorem KeepsAllBut.mono {l l' : List Part} {s t : State} (h : KeepsAllBut l s t) (hl : ∀ p, p ∈ l → p ∈ l') :
    KeepsAllBut l' s t := fun p hp => h p fun hq => hp (hl p hq)

/-- What raising a fatal error leaves (R201, R202). -/
theorem haltsWith_raiseFatal (s : State) (c : HaltCause) (w a : Word) :
    HaltsWith s (s.raiseFatal c s.pc w a) c w a := by
  refine ⟨rfl, rfl, fun p hp => ?_⟩
  cases p <;> first | (simp at hp; done) | simp [SamePart, State.readMem, State.readKey]

end Sys2Proof.Machine
end

