-- ==== Sys2Proof/Laws/Events.lean ====
section
/-! SUPPORT. The step at given parameters, and the pacer's small operations (70_reset_and_hazards.md R225, R226). -/

namespace Sys2Proof.Machine

/-! ### The step at given parameters -/

/-- Everything a step at given parameters can be (R41, R71, R77, R83). -/
theorem stepWith_cases (p : Params) (s : State) :
    (s.run.mode ≠ .running ∧ stepWith p s = .next s) ∨
    (s.run.mode = .running ∧ s.pc.toNat > 0xFFE ∧ ∃ a : Word, a.toNat = max s.pc.toNat 0x1000 ∧
      stepWith p s = .next (s.raiseFatal .outOfBoundsAccess s.pc 0 a)) ∨
    (s.run.mode = .running ∧ s.pc.toNat ≤ 0xFFE ∧ decodeWordIn p.strictDecode s.fetchWord = none ∧
      stepWith p s = .next (s.raiseFatal .unknownOpcode s.pc s.fetchWord 0)) ∨
    (s.run.mode = .running ∧ s.pc.toNat ≤ 0xFFE ∧ ∃ i, decodeWordIn p.strictDecode s.fetchWord = some i ∧
      stepWith p s = execWith p i s) := by
  unfold stepWith
  obtain ⟨h, e⟩ | ⟨h, k, a, ha, e⟩ | ⟨h, k, d, e⟩ | ⟨h, k, i, d, e⟩ := startStepIn_cases p.strictDecode s <;> rw [e]
  · exact .inl ⟨h, rfl⟩
  · exact .inr (.inl ⟨h, k, a, ha, rfl⟩)
  · exact .inr (.inr (.inl ⟨h, k, d, rfl⟩))
  · exact .inr (.inr (.inr ⟨h, k, i, d, rfl⟩))

/-- Every instruction answers a next state at every parameters. -/
theorem execWith_next (p : Params) (i : Instr) (s : State) : ∃ t, execWith p i s = .next t := by
  cases i <;> exact ⟨_, rfl⟩

/-- The step event is the state its step answers. -/
theorem stepEventWith_of_next {p : Params} {s t : State} (h : stepWith p s = .next t) : stepEventWith p s = t := by
  simp [stepEventWith, h]

/-! ### The pacer -/

/-- A step period is positive where N is at least 1. -/
theorem period_pos {n : Nat} (h : n ≥ 1) : 0 < period n := by
  unfold period; positivity

/-- The loop of advance has turns for every whole period: one more period is longer than the time. -/
theorem lt_periodsIn_succ {n : Nat} (hn : n ≥ 1) {a : Rat} (h : 0 ≤ a) : a < ((periodsIn n a : Nat) + 1) * period n := by
  have hp := period_pos hn
  have h0 : (0 : Int) ≤ ⌊a / period n⌋ := Int.floor_nonneg.2 (by positivity)
  have h1 : (((a / period n).floor.toNat : Nat) : Rat) = (⌊a / period n⌋ : Rat) := by
    rw [← Int.cast_natCast (R := Rat), Int.toNat_of_nonneg]; rfl
    exact h0
  rw [periodsIn, h1, ← div_lt_iff₀ hp]
  exact Int.lt_floor_add_one _

@[simp] theorem State.addAcc_acc (s : State) (d : Rat) : (s.addAcc d).pacer.acc = s.pacer.acc + d := rfl
@[simp] theorem State.addAcc_stepCount (s : State) (d : Rat) : (s.addAcc d).pacer.stepCount = s.pacer.stepCount := rfl
@[simp] theorem State.addAcc_run (s : State) (d : Rat) : (s.addAcc d).run = s.run := rfl
@[simp] theorem dropTime_acc (s : State) : (dropTime s).pacer.acc = 0 := rfl
@[simp] theorem dropTime_stepCount (s : State) : (dropTime s).pacer.stepCount = s.pacer.stepCount := rfl
@[simp] theorem dropTime_run (s : State) : (dropTime s).run = s.run := rfl

@[simp] theorem timerTick_pacer (s : State) : (timerTick s).pacer = s.pacer := by unfold timerTick; split <;> rfl
@[simp] theorem timerTick_run (s : State) : (timerTick s).run = s.run := by unfold timerTick; split <;> rfl

@[simp] theorem countStep_acc (n : Nat) (s : State) : (countStep n s).pacer.acc = s.pacer.acc := by
  unfold countStep; split <;> simp

@[simp] theorem countStep_run (n : Nat) (s : State) : (countStep n s).run = s.run := by
  unfold countStep; split <;> simp

/-- Counting a step keeps the step count below N. -/
theorem countStep_stepCount_lt {n : Nat} {s : State} (h : s.pacer.stepCount < n) :
    (countStep n s).pacer.stepCount < n := by
  unfold countStep; split <;> simp <;> omega

end Sys2Proof.Machine
end

