-- ==== Sys2Proof/Laws/PerInstr.lean ====
section
/-! SUPPORT. Statements about every instruction, made per instruction: the word that `encode` writes for an instruction
matches its own row of spec/opcode_table.json (30_encoding.md R76). -/

namespace Sys2Proof.Laws

/-- The mask and the match of the row of spec/opcode_table.json that an instruction belongs to. -/
def tableRow : Instr → Word × Word
  | .cls _ => (0xF0FF, 0x00E0)
  | .ret _ => (0xF0FF, 0x00EE)
  | .jp _ => (0xF000, 0x1000)
  | .call _ => (0xF000, 0x2000)
  | .seImm _ _ => (0xF000, 0x3000)
  | .sneImm _ _ => (0xF000, 0x4000)
  | .seReg _ _ _ => (0xF000, 0x5000)
  | .ldImm _ _ => (0xF000, 0x6000)
  | .addImm _ _ => (0xF000, 0x7000)
  | .ldReg _ _ => (0xF00F, 0x8000)
  | .orReg _ _ => (0xF00F, 0x8001)
  | .andReg _ _ => (0xF00F, 0x8002)
  | .xorReg _ _ => (0xF00F, 0x8003)
  | .addReg _ _ => (0xF00F, 0x8004)
  | .subReg _ _ => (0xF00F, 0x8005)
  | .shr _ _ => (0xF00F, 0x8006)
  | .subnReg _ _ => (0xF00F, 0x8007)
  | .shl _ _ => (0xF00F, 0x800E)
  | .sneReg _ _ _ => (0xF000, 0x9000)
  | .ldI _ => (0xF000, 0xA000)
  | .jpV0 _ => (0xF000, 0xB000)
  | .rnd _ _ => (0xF000, 0xC000)
  | .drw _ _ _ => (0xF000, 0xD000)
  | .skp _ => (0xF0FF, 0xE09E)
  | .sknp _ => (0xF0FF, 0xE0A1)
  | .ldVDt _ => (0xF0FF, 0xF007)
  | .ldVKey _ => (0xF0FF, 0xF00A)
  | .ldDtV _ => (0xF0FF, 0xF015)
  | .ldStV _ => (0xF0FF, 0xF018)
  | .addIV _ => (0xF0FF, 0xF01E)
  | .ldFV _ => (0xF0FF, 0xF029)
  | .ldBV _ => (0xF0FF, 0xF033)
  | .ldMemV _ => (0xF0FF, 0xF055)
  | .ldVMem _ => (0xF0FF, 0xF065)

/-- The encoded word is a word of the instruction's row. -/
def EncodeRow.Statement (i : Instr) : Prop := encode i &&& (tableRow i).1 = (tableRow i).2

theorem pack4_and (a b c d p q r t : Nibble) :
    pack4 a b c d &&& pack4 p q r t = pack4 (a &&& p) (b &&& q) (c &&& r) (d &&& t) := by
  exact (BitVec.and_append (x₁ := a ++ b ++ c)).trans (congrArg (· ++ _) ((BitVec.and_append (x₁ := a ++ b)).trans (congrArg (· ++ _) BitVec.and_append)))

theorem packXKk_and (op x p q : Nibble) (kk m : Byte) :
    packXKk op x kk &&& packXKk p q m = packXKk (op &&& p) (x &&& q) (kk &&& m) := by
  exact (BitVec.and_append (x₁ := op ++ x)).trans (congrArg (· ++ _) BitVec.and_append)

theorem packAddr_and (op p : Nibble) (a m : Addr) :
    packAddr op a &&& packAddr p m = packAddr (op &&& p) (a &&& m) := by
  exact BitVec.and_append

theorem EncodeRow.cls (ignored : Nibble) : EncodeRow.Statement (.cls ignored) := by
  change packXKk _ _ _ &&& packXKk 0xF 0x0 0xFF = 0x00E0#16
  rw [packXKk_and]; simp; rfl

theorem EncodeRow.ret (ignored : Nibble) : EncodeRow.Statement (.ret ignored) := by
  change packXKk _ _ _ &&& packXKk 0xF 0x0 0xFF = 0x00EE#16
  rw [packXKk_and]; simp; rfl

theorem EncodeRow.jp (addr : Addr) : EncodeRow.Statement (.jp addr) := by
  change packAddr _ _ &&& packAddr 0xF 0x0 = 0x1000#16
  rw [packAddr_and]; simp; rfl

theorem EncodeRow.call (addr : Addr) : EncodeRow.Statement (.call addr) := by
  change packAddr _ _ &&& packAddr 0xF 0x0 = 0x2000#16
  rw [packAddr_and]; simp; rfl

theorem EncodeRow.seImm (x : Nibble) (kk : Byte) : EncodeRow.Statement (.seImm x kk) := by
  change packXKk _ _ _ &&& packXKk 0xF 0x0 0x0 = 0x3000#16
  rw [packXKk_and]; simp; rfl

theorem EncodeRow.sneImm (x : Nibble) (kk : Byte) : EncodeRow.Statement (.sneImm x kk) := by
  change packXKk _ _ _ &&& packXKk 0xF 0x0 0x0 = 0x4000#16
  rw [packXKk_and]; simp; rfl

theorem EncodeRow.seReg (x : Nibble) (y : Nibble) (ignored : Nibble) : EncodeRow.Statement (.seReg x y ignored) := by
  change pack4 _ _ _ _ &&& pack4 0xF 0x0 0x0 0x0 = 0x5000#16
  rw [pack4_and]; simp; rfl

theorem EncodeRow.ldImm (x : Nibble) (kk : Byte) : EncodeRow.Statement (.ldImm x kk) := by
  change packXKk _ _ _ &&& packXKk 0xF 0x0 0x0 = 0x6000#16
  rw [packXKk_and]; simp; rfl

theorem EncodeRow.addImm (x : Nibble) (kk : Byte) : EncodeRow.Statement (.addImm x kk) := by
  change packXKk _ _ _ &&& packXKk 0xF 0x0 0x0 = 0x7000#16
  rw [packXKk_and]; simp; rfl

theorem EncodeRow.ldReg (x : Nibble) (y : Nibble) : EncodeRow.Statement (.ldReg x y) := by
  change pack4 _ _ _ _ &&& pack4 0xF 0x0 0x0 0xF = 0x8000#16
  rw [pack4_and]; simp; rfl

theorem EncodeRow.orReg (x : Nibble) (y : Nibble) : EncodeRow.Statement (.orReg x y) := by
  change pack4 _ _ _ _ &&& pack4 0xF 0x0 0x0 0xF = 0x8001#16
  rw [pack4_and]; simp; rfl

theorem EncodeRow.andReg (x : Nibble) (y : Nibble) : EncodeRow.Statement (.andReg x y) := by
  change pack4 _ _ _ _ &&& pack4 0xF 0x0 0x0 0xF = 0x8002#16
  rw [pack4_and]; simp; rfl

theorem EncodeRow.xorReg (x : Nibble) (y : Nibble) : EncodeRow.Statement (.xorReg x y) := by
  change pack4 _ _ _ _ &&& pack4 0xF 0x0 0x0 0xF = 0x8003#16
  rw [pack4_and]; simp; rfl

theorem EncodeRow.addReg (x : Nibble) (y : Nibble) : EncodeRow.Statement (.addReg x y) := by
  change pack4 _ _ _ _ &&& pack4 0xF 0x0 0x0 0xF = 0x8004#16
  rw [pack4_and]; simp; rfl

theorem EncodeRow.subReg (x : Nibble) (y : Nibble) : EncodeRow.Statement (.subReg x y) := by
  change pack4 _ _ _ _ &&& pack4 0xF 0x0 0x0 0xF = 0x8005#16
  rw [pack4_and]; simp; rfl

theorem EncodeRow.shr (x : Nibble) (y : Nibble) : EncodeRow.Statement (.shr x y) := by
  change pack4 _ _ _ _ &&& pack4 0xF 0x0 0x0 0xF = 0x8006#16
  rw [pack4_and]; simp; rfl

theorem EncodeRow.subnReg (x : Nibble) (y : Nibble) : EncodeRow.Statement (.subnReg x y) := by
  change pack4 _ _ _ _ &&& pack4 0xF 0x0 0x0 0xF = 0x8007#16
  rw [pack4_and]; simp; rfl

theorem EncodeRow.shl (x : Nibble) (y : Nibble) : EncodeRow.Statement (.shl x y) := by
  change pack4 _ _ _ _ &&& pack4 0xF 0x0 0x0 0xF = 0x800E#16
  rw [pack4_and]; simp; rfl

theorem EncodeRow.sneReg (x : Nibble) (y : Nibble) (ignored : Nibble) : EncodeRow.Statement (.sneReg x y ignored) := by
  change pack4 _ _ _ _ &&& pack4 0xF 0x0 0x0 0x0 = 0x9000#16
  rw [pack4_and]; simp; rfl

theorem EncodeRow.ldI (addr : Addr) : EncodeRow.Statement (.ldI addr) := by
  change packAddr _ _ &&& packAddr 0xF 0x0 = 0xA000#16
  rw [packAddr_and]; simp; rfl

theorem EncodeRow.jpV0 (addr : Addr) : EncodeRow.Statement (.jpV0 addr) := by
  change packAddr _ _ &&& packAddr 0xF 0x0 = 0xB000#16
  rw [packAddr_and]; simp; rfl

theorem EncodeRow.rnd (x : Nibble) (kk : Byte) : EncodeRow.Statement (.rnd x kk) := by
  change packXKk _ _ _ &&& packXKk 0xF 0x0 0x0 = 0xC000#16
  rw [packXKk_and]; simp; rfl

theorem EncodeRow.drw (x : Nibble) (y : Nibble) (n : Nibble) : EncodeRow.Statement (.drw x y n) := by
  change pack4 _ _ _ _ &&& pack4 0xF 0x0 0x0 0x0 = 0xD000#16
  rw [pack4_and]; simp; rfl

theorem EncodeRow.skp (x : Nibble) : EncodeRow.Statement (.skp x) := by
  change packXKk _ _ _ &&& packXKk 0xF 0x0 0xFF = 0xE09E#16
  rw [packXKk_and]; simp; rfl

theorem EncodeRow.sknp (x : Nibble) : EncodeRow.Statement (.sknp x) := by
  change packXKk _ _ _ &&& packXKk 0xF 0x0 0xFF = 0xE0A1#16
  rw [packXKk_and]; simp; rfl

theorem EncodeRow.ldVDt (x : Nibble) : EncodeRow.Statement (.ldVDt x) := by
  change packXKk _ _ _ &&& packXKk 0xF 0x0 0xFF = 0xF007#16
  rw [packXKk_and]; simp; rfl

theorem EncodeRow.ldVKey (x : Nibble) : EncodeRow.Statement (.ldVKey x) := by
  change packXKk _ _ _ &&& packXKk 0xF 0x0 0xFF = 0xF00A#16
  rw [packXKk_and]; simp; rfl

theorem EncodeRow.ldDtV (x : Nibble) : EncodeRow.Statement (.ldDtV x) := by
  change packXKk _ _ _ &&& packXKk 0xF 0x0 0xFF = 0xF015#16
  rw [packXKk_and]; simp; rfl

theorem EncodeRow.ldStV (x : Nibble) : EncodeRow.Statement (.ldStV x) := by
  change packXKk _ _ _ &&& packXKk 0xF 0x0 0xFF = 0xF018#16
  rw [packXKk_and]; simp; rfl

theorem EncodeRow.addIV (x : Nibble) : EncodeRow.Statement (.addIV x) := by
  change packXKk _ _ _ &&& packXKk 0xF 0x0 0xFF = 0xF01E#16
  rw [packXKk_and]; simp; rfl

theorem EncodeRow.ldFV (x : Nibble) : EncodeRow.Statement (.ldFV x) := by
  change packXKk _ _ _ &&& packXKk 0xF 0x0 0xFF = 0xF029#16
  rw [packXKk_and]; simp; rfl

theorem EncodeRow.ldBV (x : Nibble) : EncodeRow.Statement (.ldBV x) := by
  change packXKk _ _ _ &&& packXKk 0xF 0x0 0xFF = 0xF033#16
  rw [packXKk_and]; simp; rfl

theorem EncodeRow.ldMemV (x : Nibble) : EncodeRow.Statement (.ldMemV x) := by
  change packXKk _ _ _ &&& packXKk 0xF 0x0 0xFF = 0xF055#16
  rw [packXKk_and]; simp; rfl

theorem EncodeRow.ldVMem (x : Nibble) : EncodeRow.Statement (.ldVMem x) := by
  change packXKk _ _ _ &&& packXKk 0xF 0x0 0xFF = 0xF065#16
  rw [packXKk_and]; simp; rfl

end Sys2Proof.Laws
end

