-- ==== Sys2Proof/Tests/Slice0.lean ====
section
/-! SUPPORT. Tests: the vectors of spec/95_test_vectors.md and the examples of the rules, one step each, and a witness for
the hypotheses of every statement. Expected values are the spec's. -/

namespace Sys2Proof.Tests

open Sys2Proof.Machine

/-- The state after one step on a word placed at PC. -/
def run1 (s : State) (w : Word) : State := stepEvent (s.placeWord w)
/-- Reset with V[x] = a. -/
def withV (x : Nibble) (a : Byte) : State := State.reset.writeV x a
/-- Reset with V[x] = a and V[y] = b. -/
def withVV (x : Nibble) (a : Byte) (y : Nibble) (b : Byte) : State := (State.reset.writeV x a).writeV y b
/-- Reset with I. -/
def withI (w : Word) : State := State.reset.setI w
/-- A halted state. -/
def haltedState : State := State.reset.raiseFatal .unknownOpcode 0x200 0 0
/-- A state waiting for a key into V[x] at 0x210 (V-K7). -/
def waitingState (x : Nibble) : State := run1 (State.reset.setPc 0x210) (encode (.ldVKey x))
/-- Reset with the given number of stack slots in use and 0x0456 in every slot. -/
def withSp (n : Nat) : State := { State.reset with sp := n, stack := List.replicate 16 0x0456 }
/-- This hardware at a STEPS_PER_TIMER_TICK of the test's own (V-X6 to V-X13). -/
def atRatio (n : Nat) : Params := { stepsPerTimerTick := n }

/-- Pixel (7, 5) set, a one-pixel sprite at 0x300, and the coordinates 69 and 39 of V-D3. -/
def onePixel : State :=
  { withVV 0x0 0x45 0x1 0x27 with disp := setPixel blankDisplay 7 5 true, i := 0x300, mem := [(0x300, 0x80)] }

/-! ### Well-formedness and decoding (R75, R76, R77) -/

theorem test_ill_formed_cls : Instr.wellFormedIn true (.cls 0x1) = false := by decide
theorem test_ill_formed_ret : Instr.wellFormedIn true (.ret 0xF) = false := by decide
theorem test_ill_formed_seReg : Instr.wellFormedIn true (.seReg 0x1 0x2 0x1) = false := by decide
theorem test_ill_formed_sneReg : Instr.wellFormedIn true (.sneReg 0x1 0x2 0xF) = false := by decide
theorem test_well_formed_lenient : Instr.wellFormed (.cls 0x1) = true := by decide

/-- 40_control_transfer.md: RET, JP, CALL, the skips, JP V0 (V-E7, L1-4, V-C3, V-C7, V-C8, V-E8, V-E10, V-C12). -/
theorem test_decode_control :
    decodeWord 0x0FEE = some (.ret 0xF) ∧ decodeWord 0x1ABC = some (.jp 0xABC) ∧ decodeWord 0x2400 = some (.call 0x400) ∧
    decodeWord 0x3342 = some (.seImm 0x3 0x42) ∧ decodeWord 0x4300 = some (.sneImm 0x3 0x00) ∧
    decodeWord 0x5121 = some (.seReg 0x1 0x2 0x1) ∧ decodeWord 0x912F = some (.sneReg 0x1 0x2 0xF) ∧
    decodeWord 0xBFFF = some (.jpV0 0xFFF) := by decide

/-- 41_alu.md: the words of V-A1 to V-A34. -/
theorem test_decode_alu :
    decodeWord 0x6A2F = some (.ldImm 0xA 0x2F) ∧ decodeWord 0x7103 = some (.addImm 0x1 0x03) ∧
    decodeWord 0x8120 = some (.ldReg 0x1 0x2) ∧ decodeWord 0x8CD1 = some (.orReg 0xC 0xD) ∧
    decodeWord 0x8122 = some (.andReg 0x1 0x2) ∧ decodeWord 0x8123 = some (.xorReg 0x1 0x2) ∧
    decodeWord 0x81F4 = some (.addReg 0x1 0xF) ∧ decodeWord 0x8125 = some (.subReg 0x1 0x2) ∧
    decodeWord 0x8126 = some (.shr 0x1 0x2) ∧ decodeWord 0x8127 = some (.subnReg 0x1 0x2) ∧
    decodeWord 0x810E = some (.shl 0x1 0x0) ∧ decodeWord 0xC3A5 = some (.rnd 0x3 0xA5) := by decide

/-- 42_index_memory.md: the words of V-M1 to V-M22. -/
theorem test_decode_index :
    decodeWord 0xA2F0 = some (.ldI 0x2F0) ∧ decodeWord 0xF21E = some (.addIV 0x2) ∧ decodeWord 0xF429 = some (.ldFV 0x4) ∧
    decodeWord 0xF533 = some (.ldBV 0x5) ∧ decodeWord 0xF255 = some (.ldMemV 0x2) ∧
    decodeWord 0xFF65 = some (.ldVMem 0xF) := by decide

/-- 43_display.md and 44_keypad_timers.md: the words of V-E5, V-D, V-K. -/
theorem test_decode_display_keypad_timers :
    decodeWord 0x01E0 = some (.cls 0x1) ∧ decodeWord 0xDF11 = some (.drw 0xF 0x1 0x1) ∧ decodeWord 0xE29E = some (.skp 0x2) ∧
    decodeWord 0xE2A1 = some (.sknp 0x2) ∧ decodeWord 0xF107 = some (.ldVDt 0x1) ∧ decodeWord 0xF30A = some (.ldVKey 0x3) ∧
    decodeWord 0xF115 = some (.ldDtV 0x1) ∧ decodeWord 0xF118 = some (.ldStV 0x1) := by decide

/-- V-E2, V-E3, V-E11, V-E12, V-E13. -/
theorem test_decode_unknown :
    [0x0000, 0x0123, 0x8008, 0x8009, 0x800A, 0x800B, 0x800C, 0x800D, 0x800F, 0xE09F, 0xE0A0, 0xE000, 0xF000, 0xF01F, 0xF0FF,
      0xF075].all (fun w => decodeWord w == none) = true := by decide

/-- V-E5, V-E6, V-E8, V-E9: the ignored fields, lenient and strict. -/
theorem test_decode_strict :
    decodeWordIn true 0x01E0 = none ∧ decodeWordIn true 0x0FEE = none ∧ decodeWordIn true 0x5121 = none ∧
    decodeWordIn true 0x9121 = none ∧ decodeWordIn true 0x5120 = some (.seReg 0x1 0x2 0x0) := by decide

/-- L1-3, R86 with the correction C3. -/
theorem test_fields_8CD1 :
    fieldOp 0x8CD1 = 0x8 ∧ fieldAddr 0x8CD1 = 0xCD1 ∧ fieldX 0x8CD1 = 0xC ∧ fieldY 0x8CD1 = 0xD ∧ fieldN 0x8CD1 = 0x1 ∧
    fieldKk 0x8CD1 = 0xD1 := by decide

theorem test_decode_bytes :
    decodeBytes [0xA2, 0xF0, 0x12] = .ok (.ldI 0x2F0, [0x12]) ∧ decodeBytes [0xA2] = .error .truncated ∧
    decodeBytes [0x01, 0x23] = .error (.unknownOpcode 0x0123) := ⟨rfl, rfl, rfl⟩

theorem test_decode_table_word : decodeTableWord 16 0xF965 = some (.ldVMem 0x9) := by decide

/-- The big-endian placement: the high byte of the word at PC (V-E1). -/
theorem test_with_fetch_word :
    (State.reset.withFetchWord 16 0xA2F0).readMem 0x200 = 0xA2 ∧ (State.reset.withFetchWord 16 0xA2F0).readMem 0x201 = 0xF0 ∧
    (stepEvent (State.reset.withFetchWord 16 0xA2F0)).i = 0x2F0 := by decide

/-! ### Fetch and dispatch (V-E14 to V-E17, V-X1, V-X2) -/

theorem test_fetch_at_ffe : (run1 (State.reset.setPc 0xFFE) 0x1200).pc = 0x200 := by decide
theorem test_fetch_at_fff :
    (stepEvent (State.reset.setPc 0xFFF)).haltInfo = { pc := 0xFFF, word := 0, addr := 0x1000 } := by decide
theorem test_fetch_at_10fe :
    (stepEvent (State.reset.setPc 0x10FE)).haltInfo = { pc := 0x10FE, word := 0, addr := 0x10FE } := by decide
theorem test_fetch_odd :
    (run1 (State.reset.setPc 0x201) 0x6007).pc = 0x203 ∧ (run1 (State.reset.setPc 0x201) 0x6007).readV 0 = 0x07 := by decide
theorem test_step_without_load :
    (stepEvent State.reset).haltInfo = { pc := 0x200, word := 0, addr := 0 } ∧
    haltCauseOut (stepEvent State.reset) = 1 := by decide
theorem test_step_halted : transition .step haltedState = (haltedState, .haltedError .unknownOpcode) := by decide

/-! ### Control transfer -/

/-- V-C2. -/
theorem test_ret : (run1 (withSp 2) 0x00EE).pc = 0x0456 ∧ (run1 (withSp 2) 0x00EE).sp = 1 := by decide
/-- V-C1. -/
theorem test_ret_empty :
    haltCauseOut (run1 State.reset 0x0FEE) = 3 ∧ (run1 State.reset 0x0FEE).haltInfo = { pc := 0x200, word := 0x0FEE, addr := 0 } ∧
    (run1 State.reset 0x0FEE).pc = 0x200 := by decide
/-- L1-4. -/
theorem test_jp : (run1 State.reset 0x1ABC).pc = 0xABC := by decide
/-- V-C3. -/
theorem test_call :
    (run1 (withSp 15) 0x2400).slot 15 = 0x0202 ∧ (run1 (withSp 15) 0x2400).sp = 16 ∧
    (run1 (withSp 15) 0x2400).pc = 0x400 := by decide
/-- V-C4, P4. -/
theorem test_call_full :
    haltCauseOut (run1 (withSp 16) 0x2400) = 2 ∧ (run1 (withSp 16) 0x2400).sp = 16 ∧ (run1 (withSp 16) 0x2400).pc = 0x200 ∧
    (run1 (withSp 16) 0x2400).haltInfo = { pc := 0x200, word := 0x2400, addr := 0 } := by decide
/-- V-C7. -/
theorem test_se_imm :
    (run1 (withV 0x3 0x42) 0x3342).pc = 0x204 ∧ (run1 (withV 0x3 0x42) 0x3343).pc = 0x202 := by decide
/-- V-C8. -/
theorem test_sne_imm :
    (run1 (withV 0x3 0x42) 0x4342).pc = 0x202 ∧ (run1 (withV 0x3 0x42) 0x4300).pc = 0x204 := by decide
/-- V-E8, R106. -/
theorem test_se_reg :
    (run1 (withVV 0x1 7 0x2 7) 0x5121).pc = 0x204 ∧ (run1 (withVV 0x1 7 0x2 8) 0x5120).pc = 0x202 := by decide
/-- V-E10, V-C10. -/
theorem test_sne_reg :
    (run1 (withVV 0x1 7 0x2 8) 0x912F).pc = 0x204 ∧ (run1 State.reset 0x9330).pc = 0x202 := by decide
/-- V-C13, V-C15. -/
theorem test_jp_v0 :
    (run1 (withV 0x0 0xFF) 0xBFFF).pc = 0x10FE ∧ (run1 (withVV 0x0 0x05 0x1 0x20) 0xB300).pc = 0x305 := by decide

/-! ### ALU -/

/-- V-A1. -/
theorem test_ld_imm : (run1 State.reset 0x6A2F).readV 0xA = 0x2F ∧ (run1 State.reset 0x6A2F).pc = 0x202 := by decide
/-- V-A3. -/
theorem test_add_imm_wraps :
    (run1 (withVV 0x1 0xFE 0xF 0x07) 0x7103).readV 0x1 = 0x01 ∧ (run1 (withVV 0x1 0xFE 0xF 0x07) 0x7103).readV 0xF = 0x07 := by
  decide
/-- V-A5. -/
theorem test_ld_reg : (run1 (withV 0x2 0x55) 0x8120).readV 0x1 = 0x55 := by decide
/-- V-A6. -/
theorem test_or : (run1 (withVV 0xC 0x0F 0xD 0xF0) 0x8CD1).readV 0xC = 0xFF := by decide
/-- V-A7. -/
theorem test_and : (run1 (withVV 0x1 0x3C 0x2 0x0F) 0x8122).readV 0x1 = 0x0C := by decide
/-- V-A8. -/
theorem test_xor : (run1 (withVV 0x1 0x3C 0x2 0x0F) 0x8123).readV 0x1 = 0x33 := by decide
/-- V-A10, V-A14. -/
theorem test_add_carry :
    (run1 (withVV 0x1 0xFF 0x2 0x02) 0x8124).readV 0x1 = 0x01 ∧ (run1 (withVV 0x1 0xFF 0x2 0x02) 0x8124).readV 0xF = 1 ∧
    (run1 (withVV 0x1 0x10 0xF 0xF0) 0x81F4).readV 0x1 = 0x00 ∧ (run1 (withVV 0x1 0x10 0xF 0xF0) 0x81F4).readV 0xF = 1 := by
  decide
/-- V-A13: the flag is written last. -/
theorem test_add_into_vf : (run1 (withVV 0x1 0x01 0xF 0xFF) 0x8F14).readV 0xF = 1 := by decide
/-- V-A16. -/
theorem test_sub_borrow :
    (run1 (withVV 0x1 3 0x2 5) 0x8125).readV 0x1 = 0xFE ∧ (run1 (withVV 0x1 3 0x2 5) 0x8125).readV 0xF = 0 := by decide
/-- V-A17. -/
theorem test_sub_equal : (run1 (withVV 0x1 7 0x2 7) 0x8125).readV 0xF = 1 := by decide
/-- V-A22. -/
theorem test_shr :
    (run1 (withVV 0x1 0x05 0x2 0xF0) 0x8126).readV 0x1 = 0x02 ∧ (run1 (withVV 0x1 0x05 0x2 0xF0) 0x8126).readV 0xF = 1 := by
  decide
/-- V-A25, V-A26. -/
theorem test_subn :
    (run1 (withVV 0x1 3 0x2 5) 0x8127).readV 0x1 = 2 ∧ (run1 (withVV 0x1 3 0x2 5) 0x8127).readV 0xF = 1 ∧
    (run1 (withVV 0x1 5 0x2 3) 0x8127).readV 0x1 = 0xFE ∧ (run1 (withVV 0x1 5 0x2 3) 0x8127).readV 0xF = 0 := by decide
/-- V-A29. -/
theorem test_shl : (run1 (withV 0x1 0x81) 0x810E).readV 0x1 = 0x02 ∧ (run1 (withV 0x1 0x81) 0x810E).readV 0xF = 1 := by decide
/-- V-A23: SHIFT_USES_VY. -/
theorem test_shr_uses_vy :
    (match execWith { shiftUsesVy := true } (.shr 0x1 0x2) (withVV 0x1 0x05 0x2 0xF0) with
      | .next t => t.readV 0x1 == 0x78 && t.readV 0xF == 0
      | .fault _ => false
      | .refused _ => false) = true := by decide
/-- V-A32, V-A34: the draw is an input. -/
theorem test_rnd :
    (randomInto 0xB7 0x3 0x0F State.reset).readV 0x3 = 0x07 ∧ (randomInto 0xFF 0x3 0xA5 State.reset).readV 0x3 = 0xA5 := by decide
theorem test_rnd_counts_draws : (run1 State.reset 0xC30F).draws = 1 ∧ (run1 State.reset 0xC30F).pc = 0x202 := by decide

/-! ### Index register and memory -/

/-- V-M1. -/
theorem test_ld_i : (run1 State.reset 0xA2F0).i = 0x2F0 := by decide
/-- V-M3, V-M4. -/
theorem test_add_i :
    (run1 ((withV 0x2 1).setI 0x0FFF) 0xF21E).i = 0x1000 ∧ (run1 ((withV 0x2 1).setI 0xFFFF) 0xF21E).i = 0x0000 := by decide
/-- V-M5, V-M6, V-M7. -/
theorem test_ld_f :
    (run1 (withV 0x4 0x0B) 0xF429).i = 0x37 ∧ (run1 (withV 0x4 0x1A) 0xF429).i = 0x32 ∧
    readBlock State.reset.mem 0x4B 5 = [0xF0, 0x80, 0xF0, 0x80, 0x80] := by decide
/-- V-M8, V-M11. -/
theorem test_bcd :
    readBlock (run1 ((withV 0x5 0x9C).setI 0x300) 0xF533).mem 0x300 3 = [1, 5, 6] ∧
    readBlock (run1 ((withV 0x5 0x07).setI 0xFFD) 0xF533).mem 0xFFD 3 = [0, 0, 7] := by decide
/-- V-M12. -/
theorem test_bcd_out_of_bounds :
    (run1 (withI 0xFFE) 0xF533).haltInfo = { pc := 0x200, word := 0xF533, addr := 0x1000 } ∧
    haltCauseOut (run1 (withI 0xFFE) 0xF533) = 4 ∧ (run1 (withI 0xFFE) 0xF533).readMem 0xFFE = 0 := by decide
/-- V-M13, V-M14. -/
theorem test_store :
    readBlock (run1 (((withVV 0x0 1 0x1 2).writeV 0x2 3).setI 0x400) 0xF255).mem 0x400 4 = [1, 2, 3, 0] ∧
    (run1 (withI 0x400) 0xF255).i = 0x400 := by decide
/-- V-M17, V-M18. -/
theorem test_store_out_of_bounds :
    (run1 (withI 0xFFD) 0xF355).haltInfo = { pc := 0x200, word := 0xF355, addr := 0x1000 } ∧
    (run1 (withI 0x1005) 0xF055).haltInfo.addr = 0x1005 ∧
    readBlock (run1 ((withV 0x0 9).setI 0xFFD) 0xF355).mem 0xFFD 3 = [0, 0, 0] := by decide
/-- V-M15: LOAD_STORE_INCREMENTS_I. -/
theorem test_store_increments :
    (match execWith { loadStoreIncrementsI := true } (.ldMemV 0x2) (withI 0x400) with
      | .next t => t.i == 0x403
      | .fault _ => false
      | .refused _ => false) = true := by decide
/-- V-M22: the font, and V5 untouched. -/
theorem test_load :
    (run1 (withV 0x5 0x77) 0xF465).v.toList.take 6 = [0xF0, 0x90, 0x90, 0x90, 0xF0, 0x77] := by decide
/-- V-M21. -/
theorem test_load_out_of_bounds :
    (run1 (withI 0xFF8) 0xFF65).haltInfo.addr = 0x1000 ∧ (run1 (withI 0xFF8) 0xFF65).v = State.reset.v := by decide

/-! ### Display -/

/-- V-D1. -/
theorem test_cls :
    (run1 { State.reset.writeV 0xF 5 with disp := setPixel blankDisplay 3 4 true } 0x00E0).disp = blankDisplay ∧
    (run1 (withV 0xF 5) 0x00E0).readV 0xF = 5 := by decide
/-- V-D2: row 30 of glyph 0 at (62, 30) and the wrapped corner. -/
theorem test_draw_wraps :
    (List.finRange 64).filter (pixel (run1 (withVV 0x0 62 0x1 30) 0xD015).disp 30) = [0, 1, 62, 63] ∧
    (List.finRange 64).filter (pixel (run1 (withVV 0x0 62 0x1 30) 0xD015).disp 0) = [1, 62] ∧
    (run1 (withVV 0x0 62 0x1 30) 0xD015).readV 0xF = 0 := by decide +kernel
/-- V-D4: the second draw of one pixel collides. -/
theorem test_draw_collides :
    (run1 onePixel 0xD011).readV 0xF = 1 ∧ (run1 onePixel 0xD011).disp = blankDisplay := by decide +kernel
/-- V-D6, V-D7. -/
theorem test_draw_bounds :
    (run1 ((withV 0xF 1).setI 0xFFFF) 0xD010).readV 0xF = 0 ∧ (run1 ((withV 0xF 1).setI 0xFFFF) 0xD010).run.mode = .running ∧
    (run1 (withI 0xFFE) 0xD013).haltInfo = { pc := 0x200, word := 0xD013, addr := 0x1000 } := by decide

/-! ### Keypad and timers -/

/-- V-K1, V-K2. -/
theorem test_skp :
    (run1 ((withV 0x2 5).writeKey 5 true) 0xE29E).pc = 0x204 ∧ (run1 (withV 0x2 5) 0xE29E).pc = 0x202 := by decide
/-- V-K5. -/
theorem test_skp_out_of_range :
    (run1 (withV 0x2 0x10) 0xE29E).haltInfo = { pc := 0x200, word := 0xE29E, addr := 0x10 } := by decide
/-- V-K3, V-K4. -/
theorem test_sknp :
    (run1 (withV 0x2 5) 0xE2A1).pc = 0x204 ∧ (run1 ((withV 0x2 5).writeKey 5 true) 0xE2A1).pc = 0x202 := by decide
/-- V-K6. -/
theorem test_sknp_out_of_range : (run1 (withV 0x2 0xFF) 0xE2A1).haltInfo.addr = 0xFF := by decide
/-- L1-9, V-K7. -/
theorem test_wait :
    (waitingState 0x3).run = { mode := .waitKey, waitReg := 0x3, haltCause := .none } ∧ (waitingState 0x3).pc = 0x210 ∧
    stepEvent (waitingState 0x3) = waitingState 0x3 := by decide
/-- L1-9, V-K10. -/
theorem test_key_down_resumes :
    (keyDown 0x7 (waitingState 0x3)).readV 0x3 = 7 ∧ (keyDown 0x7 (waitingState 0x3)).pc = 0x212 ∧
    (keyDown 0x7 (waitingState 0x3)).run = State.reset.run ∧ (keyDown 0xC (waitingState 0xF)).readV 0xF = 0x0C := by decide
/-- V-K9, V-K11. -/
theorem test_key_events_elsewhere :
    (keyUp 0x3 (waitingState 0x0)).run.mode = .waitKey ∧ (keyDown 0x4 haltedState).readKey 0x4 = true ∧
    (keyDown 0x4 haltedState).run = haltedState.run := by decide
/-- V-K12. -/
theorem test_ld_v_dt : (run1 { State.reset with dt := 0x3C } 0xF107).readV 0x1 = 0x3C := by decide
/-- V-K13. -/
theorem test_ld_dt_v : (run1 (withV 0x1 0x3C) 0xF115).dt = 0x3C := by decide
/-- V-K14, V-K15. -/
theorem test_ld_st_v :
    beep (run1 (withV 0x1 2) 0xF118) = true ∧ beep (run1 { State.reset with st := 5 } 0xF118) = false := by decide
/-- V-K16 to V-K19. -/
theorem test_timer_tick :
    (timerTick { State.reset with dt := 1 }).dt = 0 ∧ (timerTick State.reset).st = 0 ∧
    (timerTick { waitingState 0x0 with st := 0x20 }).st = 0x1F ∧
    (timerTick { haltedState with dt := 0x10 }).dt = 0x10 := by decide

/-! ### Load, pacer, outputs, parameters -/

/-- L1-1, V-X4, V-X5. -/
theorem test_load_rom :
    (load [0x12, 0x00] State.reset).2 = .loaded 2 ∧ (load [0x12, 0x00] State.reset).1.readMem 0x200 = 0x12 ∧
    (load [] State.reset).1.loaded = true ∧ (load (List.replicate 3585 0) State.reset).2 = .romTooLarge := by decide +kernel
/-- K1-4. -/
theorem test_key_out_of_range : setKey 16 State.reset = (State.reset, .keyOutOfRange) := by decide
/-- V-X7: N = 2, one period, a step and no tick. -/
theorem test_advance_half :
    (advanceWith (atRatio 2) (1 / 120) { run1 State.reset 0x1200 with dt := 9 }).1.pacer = { acc := 0, stepCount := 1 } ∧
    (advanceWith (atRatio 2) (1 / 120) { run1 State.reset 0x1200 with dt := 9 }).1.dt = 9 := by decide +kernel
/-- V-X9: N = 1, half a period, no step. -/
theorem test_advance_accumulates :
    (advanceWith (atRatio 1) (1 / 120) (run1 State.reset 0x1200)).1.pacer.acc = 1 / 120 ∧
    (advanceWith (atRatio 1) (1 / 120) State.reset).1.run.mode = .running := by decide +kernel
/-- V-X11: the step, then its tick. -/
theorem test_advance_step_then_tick :
    (advanceWith (atRatio 1) (1 / 60) ((withV 0x1 5).placeWord 0xF115)).1.dt = 4 := by decide +kernel
/-- V-X13: a step in WAIT_KEY counts toward the tick. -/
theorem test_advance_waiting :
    (advanceWith (atRatio 1) (3 / 60) { waitingState 0x0 with dt := 3 }).1 = { waitingState 0x0 with dt := 0 } := by
  decide +kernel
/-- V-X3. -/
theorem test_advance_halted : advanceWith (atRatio 1) 1 haltedState = (haltedState, .haltedError .unknownOpcode) := by decide
theorem test_screen : ((screen { State.reset with disp := setPixel blankDisplay 1 2 true }).getD 1 []).take 4 = [0, 0, 1, 0] := by
  decide
/-- R6: the default font written at another base. -/
theorem test_font_at_another_base :
    memRead (resetMemoryWith 0x50 Config.fontImage) 0x50 = 0xF0 ∧ memRead (resetMemoryWith 0x50 Config.fontImage) 0 = 0 ∧
    Memory.wf (resetMemoryWith 0x50 Config.fontImage) = true := by decide +kernel
/-- R34, D29: the call that halts drops the rest of its time. -/
theorem test_advance_drops_the_rest :
    (advanceWith (atRatio 1) 1 State.reset).1.pacer = { acc := 0, stepCount := 0 } ∧
    (advanceWith (atRatio 1) 1 State.reset).2 = .haltedError .unknownOpcode := by decide +kernel
/-- K1-3: at a depth of 17 the 17th call is no StackOverflow. -/
theorem test_call_on_a_deeper_stack :
    (stepEventWith { stackDepth := 17 } ({ State.resetWith { stackDepth := 17 } with sp := 16 }.placeWord 0x2400)).slot 16 = 0x0202 ∧
    haltCauseOut (stepEventWith { stackDepth := 17 } ({ State.resetWith { stackDepth := 17 } with sp := 17 }.placeWord 0x2400)) = 2 := by
  decide +kernel
/-- R48: a load before the first step, once. -/
theorem test_legal_calls :
    legalCalls [.setKey 3, .event (.load [0x12, 0x00]), .event .step, .event .timerTick] = true ∧
    legalCalls [.event .step, .event (.load [])] = false ∧ legalCalls [.event (.load []), .event (.load [])] = false := by
  decide +kernel
/-- R48: an advance without a step leaves the load open, one with a step does not. -/
theorem test_legal_load_after_advance :
    legalCallsWith (atRatio 1) true State.reset [.advance 0, .advance (1 / 120), .event (.load [])] = true ∧
    legalCallsWith (atRatio 1) true State.reset [.advance (1 / 120), .advance (1 / 120), .event (.load [])] = false := by
  decide +kernel

/-! ### Witnesses: the hypotheses of each statement are met, at the boundary values of each clause -/

/-- A word placed at 0x200 in a state. -/
def at200 (s : State) (w : Word) : State := s.placeWord w

theorem witness_DecodeOfEncodeIsTheInstruction :
    (Instr.seReg 0xF 0xF 0x0).wellFormedIn true = true ∧ (Instr.cls 0xF).wellFormedIn false = true := by decide
theorem witness_EncodeOfDecodeIsTheWord :
    decodeWordIn true 0x00E0 = some (.cls 0) ∧ decodeWordIn false 0x9FFF = some (.sneReg 0xF 0xF 0xF) := by decide
theorem witness_StepRunsTheDecodedInstruction :
    ∃ s : State, s.run.mode = .running ∧ s.pc.toNat = 0xFFE ∧
      decodeWord (s.readMem s.pc.toNat ++ s.readMem (s.pc.toNat + 1)) = some (.jp 0x200) :=
  ⟨at200 (State.reset.setPc 0xFFE) 0x1200, by decide, by decide, by decide⟩
theorem witness_FetchAndDispatchFaultsHalt :
    (State.reset.setPc 0xFFF).run.mode = .running ∧ (State.reset.setPc 0xFFF).pc.toNat > 0xFFE ∧
    (State.reset.setPc 0x1000).pc.toNat > 0xFFE ∧ (State.reset.setPc 0xFFE).pc.toNat ≤ 0xFFE ∧
    decodeWord (State.reset.setPc 0xFFE).fetchWord = none := by decide
theorem witness_StepOutsideRunningChangesNothing :
    haltedState.run.mode ≠ .running ∧ (waitingState 0).run.mode ≠ .running := by decide
theorem witness_FatalErrorsArePrecise :
    ∃ t, step State.reset = .next t ∧ State.reset.run.mode ≠ .halted ∧ t.run.mode = .halted :=
  ⟨_, rfl, by decide, by decide⟩
theorem witness_WhyAStepHalts :
    (∃ t, step State.reset = .next t) ∧ State.reset.run.mode = .running ∧ Fetches (at200 (withSp 16) 0x2400) (.call 0x400) ∧
    (withSp 16).sp = 16 ∧ Fetches (at200 State.reset 0x00EE) (.ret 0) ∧ State.reset.sp = 0 ∧
    Fetches (at200 (withI 0xFFE) 0xF533) (.ldBV 0x5) ∧ lastOffset (.ldBV 0x5) = some 2 ∧
    Fetches (at200 (withV 0x2 0x10) 0xE29E) (.skp 0x2) :=
  ⟨⟨_, rfl⟩, by decide, ⟨by decide, by decide, by decide⟩, by decide, ⟨by decide, by decide, by decide⟩, by decide,
    ⟨by decide, by decide, by decide⟩, by decide, ⟨by decide, by decide, by decide⟩⟩
theorem witness_NoInstructionWritesMoreThanItsRule : ∃ t, exec (.drw 0 0 5) State.reset = .next t := ⟨_, rfl⟩
theorem witness_NoInstructionWritesAnotherRegister :
    (∃ t, exec (.ldVMem 0x3) State.reset = .next t) ∧ mayWriteReg 0x4 (.ldVMem 0x3) = false := ⟨⟨_, rfl⟩, by decide⟩
theorem witness_HostOnlyStateIsNeverRead :
    (∃ t, step (at200 (withV 0x1 2) 0xF118) = .next t) ∧ Fetches (at200 (withV 0x1 2) 0xF118) (.ldStV 0x1) ∧
    (∃ t, step State.reset = .next t ∧ t.run.mode = .halted) :=
  ⟨⟨_, rfl⟩, ⟨by decide, by decide, by decide⟩, ⟨_, rfl, by decide⟩⟩
theorem witness_RetPopsThePc : (withSp 1).sp = 0 + 1 ∧ (withSp 16).sp = 15 + 1 := by decide
theorem witness_CallPushesAndJumps :
    State.reset.StackOk Config.params ∧ State.reset.sp < 16 ∧ (withSp 15).StackOk Config.params ∧ (withSp 15).sp < 16 := by decide
theorem witness_StackFaultsHalt :
    (Fetches (at200 State.reset 0x0FEE) (.ret 0xF) ∧ State.reset.sp = 0) ∧
    (Fetches (at200 (withSp 16) 0x2FFF) (.call 0xFFF) ∧ (withSp 16).sp = 16) :=
  ⟨⟨⟨by decide, by decide, by decide⟩, by decide⟩, ⟨⟨by decide, by decide, by decide⟩, by decide⟩⟩
theorem witness_CallThenReturnComesBack :
    (withSp 0).StackOk Config.params ∧ (withSp 0).sp < 16 ∧ (withSp 15).StackOk Config.params ∧ (withSp 15).sp < 16 := by decide
theorem witness_FontAddressPointsAtTheGlyph : ∀ a, a < 80 → State.reset.readMem a = State.reset.readMem a := fun _ _ => rfl
theorem witness_BcdStoresThreeDigits :
    Memory.wf (withI 0xFFD).mem = true ∧ (withI 0xFFD).i.toNat + 2 ≤ 0xFFF := by decide
theorem witness_RegisterStoreWritesTheBlock :
    Memory.wf (withI 0xFF0).mem = true ∧ (withI 0xFF0).i.toNat + (0xF : Nibble).toNat ≤ 0xFFF := by decide
theorem witness_RegisterLoadReadsTheBlock :
    (withI 0xFF0).i.toNat + (0xF : Nibble).toNat ≤ 0xFFF ∧ (withI 0xFFF).i.toNat + (0 : Nibble).toNat ≤ 0xFFF := by decide
theorem witness_OutOfBoundsHalts :
    (Fetches (at200 (withI 0xFFE) 0xF255) (.ldMemV 0x2) ∧ lastOffset (.ldMemV 0x2) = some 2 ∧ (withI 0xFFE).i.toNat + 2 > 0xFFF) ∧
    (Fetches (at200 (withI 0xFFFF) 0xD011) (.drw 0x0 0x1 0x1) ∧ lastOffset (.drw 0x0 0x1 0x1) = some 0 ∧
      (withI 0xFFFF).i.toNat + 0 > 0xFFF) ∧
    (Fetches (at200 (withV 0x2 0x10) 0xE2A1) (.sknp 0x2) ∧ ((withV 0x2 0x10).readV 0x2).toNat > 0xF) :=
  ⟨⟨⟨by decide, by decide, by decide⟩, by decide, by decide⟩, ⟨⟨by decide, by decide, by decide⟩, by decide, by decide⟩,
    ⟨⟨by decide, by decide, by decide⟩, by decide⟩⟩
theorem witness_StoredWordIsFetchedNext :
    Memory.wf (withI 0x202).mem = true ∧ (withI 0x202).i.toNat + (1 : Nibble).toNat ≤ 0xFFF ∧ (withI 0x202).pc.toNat ≤ 0xFFC ∧
    (1 : Nibble).toNat = (0 : Nibble).toNat + 1 ∧ (1 : Nibble).toNat ≤ (1 : Nibble).toNat ∧
    (withI 0x202).i.toNat + (0 : Nibble).toNat = (withI 0x202).pc.toNat + 2 := by decide
theorem witness_MemoryIsCanonical :
    Memory.wf [(0x0, 0x01), (0xFFF, 0x80)] = true ∧ Memory.wf [(0x0, 0xF0)] = false ∧ Memory.wf [(0x1000, 0x80)] = false ∧
    Memory.wf [(0x300, 1), (0x300, 2)] = false := by decide
theorem witness_DrawFlipsTheSpritePixels :
    (0 : Nibble).toNat = 0 ∧ (withI 0xFF1).i.toNat + ((0xF : Nibble).toNat - 1) ≤ 0xFFF := by decide
theorem witness_DrawingTwiceUndoesTheFirst :
    ∃ t, exec (.drw 0 1 5) State.reset = .next t ∧ t.readV 0 = State.reset.readV 0 ∧ t.readV 1 = State.reset.readV 1 ∧
      State.reset.i.toNat + ((5 : Nibble).toNat - 1) ≤ 0xFFF :=
  ⟨_, rfl, by decide +kernel, by decide +kernel, by decide⟩
theorem witness_KeySkipsTestTheLatch :
    ((withV 0x2 0xF).readV 0x2).toNat = (0xF : Nibble).toNat ∧ ((withV 0x2 0).readV 0x2).toNat = (0 : Nibble).toNat := by decide
theorem witness_KeyEventsWriteTheLatchAndEndTheWait :
    (waitingState 0xF).run.mode = .waitKey ∧ State.reset.run.mode ≠ .waitKey ∧ haltedState.run.mode ≠ .waitKey := by decide
theorem witness_OnlyAKeyDownEndsAWait :
    (waitingState 0x3).run.mode = .waitKey ∧
    (∀ e ∈ [Event.step, Event.timerTick, Event.keyUp 0x3], e = .step ∨ e = .timerTick ∨ ∃ k, e = .keyUp k) :=
  ⟨by decide, by simp⟩
theorem witness_HaltedIsTerminal :
    haltedState.run.mode = .halted ∧ (∀ e ∈ [Event.step, Event.keyDown 0x3, Event.timerTick], ∀ bytes, e ≠ .load bytes) :=
  ⟨by decide, by simp⟩
theorem witness_TimerTickCountsDown : (waitingState 0).run.mode ≠ .halted ∧ haltedState.run.mode = .halted := by decide
theorem witness_BeepLastsSoundTimerTicks : State.reset.run.mode ≠ .halted := by decide
theorem witness_LoadCopiesTheImage :
    Memory.wf State.reset.mem = true ∧ (List.replicate 3584 (0 : Byte)).length ≤ 3584 ∧
    (List.replicate 3585 (0 : Byte)).length > 3584 := by
  refine ⟨by decide, ?_, ?_⟩ <;> rw [List.length_replicate] <;> decide
theorem witness_KeyCallsCheckTheIndex : 16 > 15 ∧ (0xF : Nibble).toNat = 15 := by decide
theorem witness_OnePeriodIsOneStepThenItsTick :
    (atRatio 1).stepsPerTimerTick ≥ 1 ∧
    (∃ t, stepWith (atRatio 1) (at200 State.reset 0x1200) = .next t ∧ t.run.mode ≠ .halted) ∧
    (at200 State.reset 0x1200).run.mode ≠ .halted ∧ (at200 State.reset 0x1200).pacer.acc = 0 ∧
    (∃ t, stepWith (atRatio 1) (waitingState 0x0) = .next t ∧ t.run.mode ≠ .halted) ∧
    (waitingState 0x0).run.mode ≠ .halted ∧ (waitingState 0x0).pacer.acc = 0 ∧
    (∃ t, stepWith (atRatio 1) State.reset = .next t ∧ t.run.mode = .halted) ∧ haltedState.run.mode = .halted :=
  ⟨by decide, ⟨_, rfl, by decide⟩, by decide, rfl, ⟨_, rfl, by decide⟩, by decide, rfl, ⟨_, rfl, by decide⟩, by decide⟩
theorem witness_AdvanceConsumesEveryWholePeriod :
    (atRatio 1).stepsPerTimerTick ≥ 1 ∧ State.PacerOk 1 (at200 State.reset 0x1200) ∧ (0 : Rat) ≤ 1 / 30 ∧
    State.PacerOk 1 haltedState := by
  decide +kernel
theorem witness_AdvanceAddsUp :
    (atRatio 2).stepsPerTimerTick ≥ 1 ∧ State.PacerOk 2 (at200 State.reset 0x1200) ∧ (0 : Rat) ≤ 1 / 100 ∧
    (advanceWith (atRatio 2) (1 / 100) (at200 State.reset 0x1200)).2 = .ok := by
  decide +kernel
theorem witness_ResetState :
    ({ fontBase := 0xFB0, stackDepth := 17 } : Params).fontBase.toNat + ({ fontBase := 0xFB0 } : Params).fontImage.length ≤ 4096 := by
  decide
theorem witness_ResetMeetsTheInvariant :
    ({ fontBase := 0x50 } : Params).fontBase.toNat + ({ fontBase := 0x50 } : Params).fontImage.length ≤ 4096 := by decide
theorem witness_LegalLoadMeetsTheResetState :
    legalCallsWith (atRatio 1) true (State.resetWith (atRatio 1))
      ([.setKey 3, .advance (1 / 120)] ++ [.event (.load [0x12, 0x00])]) = true := by
  decide +kernel
theorem witness_ParkedStaysParked : (at200 State.reset 0x1200).Parked :=
  ⟨by decide, by decide, 0x200, by decide, by decide⟩
theorem witness_MeaningsFollowTheParameters :
    (withI 0xFF0).i.toNat + (0xF : Nibble).toNat ≤ 0xFFF ∧ Memory.wf (withI 0xFF0).mem = true ∧
    (State.resetWith { stackDepth := 17 }).StackOk { stackDepth := 17 } ∧
    (State.resetWith { stackDepth := 17 }).sp < ({ stackDepth := 17 } : Params).stackDepth ∧
    (withSp 16).sp = Config.params.stackDepth ∧ readsParameter (.drw 0 1 5) = false := by decide
theorem witness_StrictDecodeHaltsOnIgnoredFields :
    ({ strictDecode := true } : Params).strictDecode = true ∧ (at200 State.reset 0x9001).run.mode = .running ∧
    (at200 State.reset 0x9001).pc.toNat ≤ 0xFFE ∧
    (fieldOp (at200 State.reset 0x9001).fetchWord = 0x9 ∧ fieldN (at200 State.reset 0x9001).fetchWord ≠ 0) ∧
    (fieldOp (at200 State.reset 0x01E0).fetchWord = 0x0 ∧ fieldX (at200 State.reset 0x01E0).fetchWord ≠ 0) := by decide
theorem witness_StepKeepsTheInvariant :
    State.reset.Inv ∧ (∃ t, step State.reset = .next t) ∧ (waitingState 0x3).Inv ∧ haltedState.Inv :=
  ⟨by decide, ⟨_, rfl⟩, by decide, by decide⟩
theorem witness_WaitingPcAddressesItsInstruction :
    (waitingState 0x3).WaitOk ∧ (waitingState 0x3).run.mode = .waitKey ∧ ∀ bytes, Event.step ≠ .load bytes :=
  ⟨by decide, by decide, by simp⟩

end Sys2Proof.Tests
end

section
/-! SUPPORT. What each meaning that reads a parameter does at any parameters, and that this hardware is the machine at
the values of R6. Frames are built one update at a time, from `KeepsAllBut.refl`. -/

namespace Sys2Proof.Machine

/-! ### The parts that an update leaves -/

theorem KeepsAllBut.advancePc {l : List Part} {s t : State} (h : KeepsAllBut l s t) (hpc : .pc ∈ l) :
    KeepsAllBut l s t.advancePc := by
  intro p hp
  cases p with
  | pc => exact absurd hpc hp
  | _ => exact h _ hp

theorem KeepsAllBut.setPc {l : List Part} {s t : State} (h : KeepsAllBut l s t) (hpc : .pc ∈ l) (w : Word) :
    KeepsAllBut l s (t.setPc w) := by
  intro p hp
  cases p with
  | pc => exact absurd hpc hp
  | _ => exact h _ hp

theorem KeepsAllBut.withI {l : List Part} {s t : State} (h : KeepsAllBut l s t) (hi : .i ∈ l) (w : Word) :
    KeepsAllBut l s { t with i := w } := by
  intro p hp
  cases p with
  | i => exact absurd hi hp
  | _ => exact h _ hp

theorem KeepsAllBut.withV {l : List Part} {s t : State} (h : KeepsAllBut l s t) (hv : .v ∈ l) (v : Regs) :
    KeepsAllBut l s { t with v := v } := by
  intro p hp
  cases p with
  | v => exact absurd hv hp
  | _ => exact h _ hp

theorem KeepsAllBut.withMem {l : List Part} {s t : State} (h : KeepsAllBut l s t) (hm : .mem ∈ l) (m : Memory) :
    KeepsAllBut l s { t with mem := m } := by
  intro p hp
  cases p with
  | mem => exact absurd hm hp
  | _ => exact h _ hp

theorem KeepsAllBut.withStack {l : List Part} {s t : State} (h : KeepsAllBut l s t) (hstack : .stack ∈ l)
    (hsp : .sp ∈ l) (stack : Stack) (sp : Nat) : KeepsAllBut l s { t with stack := stack, sp := sp } := by
  intro p hp
  cases p with
  | stack => exact absurd hstack hp
  | sp => exact absurd hsp hp
  | _ => exact h _ hp

/-- A flagged result goes to registers alone (R120). -/
theorem KeepsAllBut.writeFlagged {l : List Part} {s t : State} (h : KeepsAllBut l s t) (hv : .v ∈ l)
    (x : Nibble) (b : Byte) (f : Bool) : KeepsAllBut l s (t.writeFlagged x b f) :=
  h.withV hv _

/-! ### Operands as numbers -/

@[simp] theorem addrOperand_toNat (a : Addr) : (addrOperand a).toNat = a.toNat := by
  have := a.isLt
  simp only [addrOperand, BitVec.toNat_setWidth]
  omega

theorem glyphAddress_toNat (base : Word) (b : Byte) :
    (glyphAddress base b).toNat = (base.toNat + 5 * (b.toNat % 16)) % 65536 := by
  have hdigit : (5 * (b.extractLsb' 0 4).setWidth 16 : Word).toNat = 5 * (b.toNat % 16) := by
    simp [BitVec.toNat_mul]
    omega
  rw [glyphAddress, BitVec.toNat_add, hdigit]

/-- While the block is in range, I + x + 1 does not wrap (R145, R146). -/
theorem indexAfterBlock_toNat (increments : Bool) {i : Word} {x : Nibble} (h : i.toNat + x.toNat ≤ 0xFFF) :
    (indexAfterBlock increments i x).toNat = if increments then i.toNat + x.toNat + 1 else i.toNat := by
  cases increments with
  | false => rfl
  | true =>
    have hx : x.toNat % 65536 = x.toNat := Nat.mod_eq_of_lt (by omega)
    simp [indexAfterBlock, hx]
    omega

theorem shiftOperand_eq (usesVy : Bool) (s : State) (x y : Nibble) :
    shiftOperand usesVy s x y = s.readV (if usesVy then y else x) := by
  cases usesVy <;> rfl

theorem flagByte_eq_ofNat (f : Bool) : flagByte f = BitVec.ofNat 8 f.toNat := by
  cases f <;> rfl

/-- The bit that a right shift puts out is the remainder of the halving (R129). -/
theorem flagByte_outRight (b : Byte) : flagByte (outRight b) = BitVec.ofNat 8 (b.toNat % 2) := by
  have hbit : (outRight b).toNat = b.toNat / 2 ^ 0 % 2 := Nat.toNat_testBit b.toNat 0
  rw [flagByte_eq_ofNat, hbit, pow_zero, Nat.div_one]

/-- The bit that a left shift puts out is the carry of the doubling (R131). -/
theorem flagByte_outLeft (b : Byte) : flagByte (outLeft b) = BitVec.ofNat 8 (b.toNat / 128) := by
  have hbit : (outLeft b).toNat = b.toNat / 2 ^ 7 % 2 := Nat.toNat_testBit b.toNat 7
  have hlt := b.isLt
  rw [flagByte_eq_ofNat, hbit, Nat.mod_eq_of_lt (by omega)]; rfl

/-! ### A flagged result, register by register (R120) -/

theorem State.readV_writeFlagged_flag (s : State) (x : Nibble) (b : Byte) (f : Bool) :
    (s.writeFlagged x b f).readV 0xF = flagByte f := by
  rw [readV_writeFlagged, if_pos rfl]

theorem State.readV_writeFlagged_result (s : State) {x : Nibble} (hx : x ≠ 0xF) (b : Byte) (f : Bool) :
    (s.writeFlagged x b f).readV x = b := by
  rw [readV_writeFlagged, if_neg hx, if_pos rfl]

theorem State.readV_writeFlagged_other (s : State) {x r : Nibble} (hx : r ≠ x) (hf : r ≠ 0xF) (b : Byte) (f : Bool) :
    (s.writeFlagged x b f).readV r = s.readV r := by
  rw [readV_writeFlagged, if_neg hf, if_neg hx]

/-! ### CALL (R103) -/

/-- With a free slot, CALL pushes PC + 2 into the slot that SP names and jumps. -/
theorem execCallWith_free {depth : Nat} {s : State} (a : Addr) (hd : s.sp ≠ depth) (hl : s.sp < s.stack.length) :
    ∃ t, execCallWith depth a s = .next t ∧ t.sp = s.sp + 1 ∧ t.pc.toNat = a.toNat ∧
      (∀ j, t.slot j = if j = s.sp then s.pc + 2 else s.slot j) ∧ KeepsAllBut [.stack, .sp, .pc] s t := by
  refine ⟨_, congrArg Host.Outcome.next (if_neg hd), rfl, addrOperand_toNat a, fun j => ?_, ?_⟩
  · exact (slot_set s s.sp j (s.pc + 2) (s.sp + 1)).trans (by simp [hl])
  · exact ((KeepsAllBut.refl _ s).withStack (by simp) (by simp) _ _).setPc (by simp) _

/-- With every slot in use, CALL halts. -/
theorem execCallWith_full {depth : Nat} {s : State} (a : Addr) (hd : s.sp = depth) :
    ∃ t, execCallWith depth a s = .next t ∧ HaltsWith s t .stackOverflow (encode (.call a)) 0 :=
  ⟨_, congrArg Host.Outcome.next (if_pos hd), haltsWith_raiseFatal s .stackOverflow (encode (.call a)) 0⟩

/-! ### Shifts (R129, R131) -/

theorem execShrWith_spec (usesVy : Bool) (x y : Nibble) (s : State) :
    ∃ t, execShrWith usesVy x y s = .next t ∧
      t.readV 0xF = BitVec.ofNat 8 ((s.readV (if usesVy then y else x)).toNat % 2) ∧
      (x ≠ 0xF → (t.readV x).toNat = (s.readV (if usesVy then y else x)).toNat / 2) ∧
      (∀ r, r ≠ x → r ≠ 0xF → t.readV r = s.readV r) ∧ t.pc = s.pc + 2 ∧ KeepsAllBut [.v, .pc] s t := by
  refine ⟨_, rfl, ?_, fun hx => ?_, fun r hrx hrf => ?_, rfl, ?_⟩
  · rw [← shiftOperand_eq, ← flagByte_outRight]
    exact State.readV_writeFlagged_flag s x _ _
  · rw [← shiftOperand_eq, State.readV_advancePc, State.readV_writeFlagged_result s hx]
    simp [Nat.shiftRight_eq_div_pow]
  · exact State.readV_writeFlagged_other s hrx hrf _ _
  · exact ((KeepsAllBut.refl _ s).writeFlagged (by simp) _ _ _).advancePc (by simp)

theorem execShlWith_spec (usesVy : Bool) (x y : Nibble) (s : State) :
    ∃ t, execShlWith usesVy x y s = .next t ∧
      t.readV 0xF = BitVec.ofNat 8 ((s.readV (if usesVy then y else x)).toNat / 128) ∧
      (x ≠ 0xF → (t.readV x).toNat = (s.readV (if usesVy then y else x)).toNat * 2 % 256) ∧
      (∀ r, r ≠ x → r ≠ 0xF → t.readV r = s.readV r) ∧ t.pc = s.pc + 2 ∧ KeepsAllBut [.v, .pc] s t := by
  refine ⟨_, rfl, ?_, fun hx => ?_, fun r hrx hrf => ?_, rfl, ?_⟩
  · rw [← shiftOperand_eq, ← flagByte_outLeft]
    exact State.readV_writeFlagged_flag s x _ _
  · rw [← shiftOperand_eq, State.readV_advancePc, State.readV_writeFlagged_result s hx]
    simp [Nat.shiftLeft_eq]
  · exact State.readV_writeFlagged_other s hrx hrf _ _
  · exact ((KeepsAllBut.refl _ s).writeFlagged (by simp) _ _ _).advancePc (by simp)

/-! ### The font address (R143) -/

theorem execLdFVWith_spec (base : Word) (x : Nibble) (s : State) :
    ∃ t, execLdFVWith base x s = .next t ∧ t.i.toNat = (base.toNat + 5 * ((s.readV x).toNat % 16)) % 65536 ∧
      t.pc = s.pc + 2 ∧ KeepsAllBut [.i, .pc] s t :=
  ⟨_, rfl, glyphAddress_toNat base (s.readV x), rfl,
    ((KeepsAllBut.refl _ s).withI (by simp) _).advancePc (by simp)⟩

/-! ### The register block in range (R145, R146) -/

/-- In range, a checked effect is the effect. -/
theorem State.checked_inRange {s : State} {k : Nat} (h : s.i.toNat + k ≤ 0xFFF) (i : Instr) (effect : State) :
    s.checked (rangeFault s.i k) i effect = effect := by
  rw [rangeFault_eq_none.mpr h]; rfl

theorem execLdMemVWith_inRange (increments : Bool) {x : Nibble} {s : State} (h : s.i.toNat + x.toNat ≤ 0xFFF) :
    ∃ t, execLdMemVWith increments x s = .next t ∧
      (Memory.wf s.mem = true → ∀ r : Nibble, r.toNat ≤ x.toNat → t.readMem (s.i.toNat + r.toNat) = s.readV r) ∧
      (∀ b, b < s.i.toNat ∨ s.i.toNat + x.toNat < b → t.readMem b = s.readMem b) ∧
      t.i.toNat = (if increments then s.i.toNat + x.toNat + 1 else s.i.toNat) ∧
      t.pc = s.pc + 2 ∧ KeepsAllBut [.mem, .i, .pc] s t := by
  refine ⟨_, congrArg Host.Outcome.next (State.checked_inRange h _ _), fun hm r hr => ?_, fun b hb => ?_,
    indexAfterBlock_toNat increments h, rfl, ?_⟩
  · have hfits : s.i.toNat + (blockOut s.v x).length ≤ memSize := by rw [blockOut_length, memSize]; omega
    have hlt : r.toNat < (blockOut s.v x).length := by rw [blockOut_length]; omega
    exact (memRead_writeBlock_inside _ hm hfits hlt).trans (by simp [blockOut_getElem, State.readV])
  · exact memRead_writeBlock_outside _ _ (by rw [blockOut_length]; omega)
  · exact (((KeepsAllBut.refl _ s).withMem (by simp) (writeBlock s.mem s.i.toNat (blockOut s.v x))).withI
      (by simp) (indexAfterBlock increments s.i x)).advancePc (by simp)

theorem execLdVMemWith_inRange (increments : Bool) {x : Nibble} {s : State} (h : s.i.toNat + x.toNat ≤ 0xFFF) :
    ∃ t, execLdVMemWith increments x s = .next t ∧
      (∀ r : Nibble, t.readV r = if r.toNat ≤ x.toNat then s.readMem (s.i.toNat + r.toNat) else s.readV r) ∧
      t.i.toNat = (if increments then s.i.toNat + x.toNat + 1 else s.i.toNat) ∧
      t.pc = s.pc + 2 ∧ KeepsAllBut [.v, .i, .pc] s t := by
  refine ⟨_, congrArg Host.Outcome.next (State.checked_inRange h _ _), fun r => ?_,
    indexAfterBlock_toNat increments h, rfl, ?_⟩
  · exact (regGet_blockIn _ s.v r).trans (by simp [State.readMem, State.readV])
  · exact (((KeepsAllBut.refl _ s).withV (by simp) _).withI (by simp) _).advancePc (by simp)

/-! ### Execution at given parameters -/

/-- At the values of R6 every instruction means what it means on this hardware. -/
theorem execWith_params (i : Instr) (s : State) : execWith Config.params i s = exec i s := by
  cases i <;> rfl

/-- An instruction whose meaning reads no parameter means the same at all of them. -/
theorem execWith_of_readsParameter_eq_false (p : Params) {i : Instr} (h : readsParameter i = false) (s : State) :
    execWith p i s = exec i s := by
  cases i with
  | call | shr | shl | ldFV | ldMemV | ldVMem => cases h
  | _ => rfl

/-- Settles O54: both steps start alike, and then execute alike. -/
theorem stepIsTheParametersOfThisHardware : Obligations.StepIsTheParametersOfThisHardware := by
  intro s
  unfold stepWith step startStep
  cases startStepIn Config.params.strictDecode s with
  | run i => exact execWith_params i s
  | settled t => rfl

/-- Settles O55, from the meaning of each of the six instructions that read a parameter. -/
theorem meaningsFollowTheParameters : Obligations.MeaningsFollowTheParameters := by
  intro p x y a s
  refine ⟨fun hstack hfree => ?_, execCallWith_full a, execShrWith_spec p.shiftUsesVy x y s,
    execShlWith_spec p.shiftUsesVy x y s, execLdFVWith_spec p.fontBase x s,
    fun hrange => ⟨execLdMemVWith_inRange p.loadStoreIncrementsI hrange,
      execLdVMemWith_inRange p.loadStoreIncrementsI hrange⟩,
    fun i hi => execWith_of_readsParameter_eq_false p hi s⟩
  exact execCallWith_free a hfree.ne (hstack.1 ▸ hfree)

end Sys2Proof.Machine
end

section
/-! SUPPORT. A decoded word is the word of its instruction, and everything that an instruction can answer. -/

namespace Sys2Proof.Machine

/-! ### A decoded word is the word of its instruction (R72, R202) -/

theorem pack4_of_fields {w : Word} {op n : Nibble} (hop : fieldOp w = op) (hn : fieldN w = n) :
    pack4 op (fieldX w) (fieldY w) n = w := by
  rw [← hop, ← hn, pack4_fields]

theorem packXKk_of_fields {w : Word} {op : Nibble} {kk : Byte} (hop : fieldOp w = op) (hkk : fieldKk w = kk) :
    packXKk op (fieldX w) kk = w := by
  rw [← hop, ← hkk, packXKk_fields]

theorem packAddr_of_fields {w : Word} {op : Nibble} (hop : fieldOp w = op) : packAddr op (fieldAddr w) = w := by
  rw [← hop, packAddr_fields]

theorem encode_of_decodeFamily0 {strict : Bool} {w : Word} {i : Instr} (hop : fieldOp w = 0x0)
    (h : decodeFamily0 strict w = some i) : encode i = w := by
  unfold decodeFamily0 at h
  split at h
  · cases h
  · split at h
    · rename_i hkk; cases h; exact packXKk_of_fields hop hkk
    · split at h
      · rename_i hkk; cases h; exact packXKk_of_fields hop hkk
      · cases h

theorem encode_of_decodeFamily8 {w : Word} {i : Instr} (hop : fieldOp w = 0x8)
    (h : decodeFamily8 w = some i) : encode i = w := by
  unfold decodeFamily8 at h
  split at h <;> cases h
  all_goals rename_i hn; exact pack4_of_fields hop hn

theorem encode_of_decodeFamilyE {w : Word} {i : Instr} (hop : fieldOp w = 0xE)
    (h : decodeFamilyE w = some i) : encode i = w := by
  unfold decodeFamilyE at h
  split at h
  · rename_i hkk; cases h; exact packXKk_of_fields hop hkk
  · split at h
    · rename_i hkk; cases h; exact packXKk_of_fields hop hkk
    · cases h

theorem encode_of_decodeFamilyF {w : Word} {i : Instr} (hop : fieldOp w = 0xF)
    (h : decodeFamilyF w = some i) : encode i = w := by
  unfold decodeFamilyF at h
  split at h <;> cases h
  all_goals rename_i hkk; exact packXKk_of_fields hop hkk

/-- The word that a decoded instruction reports as HALT_WORD is the word that was decoded (R72). -/
theorem encode_of_decodeWordIn {strict : Bool} {w : Word} {i : Instr} (h : decodeWordIn strict w = some i) :
    encode i = w := by
  unfold decodeWordIn at h
  split at h
  case h_1 hop => exact encode_of_decodeFamily0 hop h
  case h_9 hop => exact encode_of_decodeFamily8 hop h
  case h_15 hop => exact encode_of_decodeFamilyE hop h
  case h_16 => exact encode_of_decodeFamilyF (by simp only [imp_false] at *; bv_omega) h
  case h_6 hop | h_10 hop =>
    split at h
    · cases h
    · cases h; exact pack4_of_fields hop rfl
  case h_14 hop => cases h; exact pack4_of_fields hop rfl
  case h_2 hop | h_3 hop | h_11 hop | h_12 hop => cases h; exact packAddr_of_fields hop
  case h_4 hop | h_5 hop | h_7 hop | h_8 hop | h_13 hop => cases h; exact packXKk_of_fields hop rfl

/-! ### What an instruction can answer -/

/-- An instruction has taken effect and the engine runs on: RUN and HALT_INFO as before, memory as before or with one
block from I on written, the stack as before or with one slot pushed or popped, and PC one of the values that the rules
produce (R23, R24, R103). The defaults are those of an instruction that goes on at PC + 2
and leaves memory and the stack. -/
structure GoesOn (p : Params) (s t : State) : Prop where
  run : t.run = s.run := by rfl
  haltInfo : t.haltInfo = s.haltInfo := by rfl
  mem : t.mem = s.mem ∨
    ∃ bytes : List Byte, s.i.toNat + bytes.length ≤ memSize ∧ t.mem = writeBlock s.mem s.i.toNat bytes := by
      exact .inl rfl
  stack : (t.stack = s.stack ∧ t.sp ≤ s.sp) ∨
    (s.sp ≠ p.stackDepth ∧ t.stack = s.stack.set s.sp (s.pc + 2) ∧ t.sp = s.sp + 1) := by
      exact .inl ⟨rfl, Nat.le_refl _⟩
  pc : t.pc = s.pc + 2 ∨ t.pc = s.pc + 4 ∨ t.pc.toNat ≤ 0x10FE ∨ ∃ j, t.pc = s.slot j := by exact .inl rfl

/-- Everything that an instruction can answer at given parameters: a fatal error, the wait of FX0A, or its effect. -/
inductive Answers (p : Params) (i : Instr) (s : State) : State → Prop where
  | faults (c : HaltCause) (a : Word) (hc : c ≠ .none) : Answers p i s (s.raiseFatal c s.pc (encode i) a)
  | waits (x : Nibble) (hi : i = .ldVKey x) :
      Answers p i s { s with run := { s.run with mode := .waitKey, waitReg := x } }
  | goesOn {t : State} (h : GoesOn p s t) : Answers p i s t

theorem GoesOn.skipIf (p : Params) (s : State) (c : Bool) : GoesOn p s (s.skipIf c) where
  pc := by cases c <;> simp

theorem Answers.checked {p : Params} {i : Instr} {s t : State} {fault : Option Word} (h : fault = none → GoesOn p s t) :
    Answers p i s (s.checked fault i t) := by
  obtain ⟨a, -, e⟩ | ⟨hn, e⟩ := s.checked_cases fault i t
  · rw [e]; exact .faults _ a (by decide)
  · rw [e]; exact .goesOn (h hn)

theorem Answers.keySkip (p : Params) (i : Instr) (s : State) (x : Nibble) (wanted : Bool) :
    Answers p i s (s.keySkip x i wanted) := by
  unfold State.keySkip
  split
  · exact .faults _ _ (by decide)
  · exact .goesOn (.skipIf p s _)

/-- Every instruction answers one of these (R83, R200). -/
theorem execWith_answers {p : Params} {i : Instr} {s t : State} (h : execWith p i s = .next t) : Answers p i s t := by
  cases i with
  | ret g =>
    cases h
    obtain ⟨-, e⟩ | ⟨n, hn, e⟩ := s.pop_cases (.ret g) fun target t => t.setPc target
    · rw [e]; exact .faults _ _ (by decide)
    · rw [e]; exact .goesOn { stack := .inl ⟨rfl, by simp; omega⟩, pc := .inr (.inr (.inr ⟨n, rfl⟩)) }
  | call a =>
    cases h
    obtain ⟨-, e⟩ | ⟨hd, e⟩ := s.push_cases p.stackDepth (s.pc + 2) (.call a) fun t => t.setPc (addrOperand a)
    · rw [e]; exact .faults _ _ (by decide)
    · rw [e]
      exact .goesOn { stack := .inr ⟨hd, rfl, rfl⟩, pc := .inr (.inr (.inl (by simp; omega))) }
  | jp a => cases h; exact .goesOn { pc := .inr (.inr (.inl (by simp; omega))) }
  | jpV0 a =>
    cases h; exact .goesOn { pc := .inr (.inr (.inl (by simp [zextByte]; omega))) }
  | seImm | sneImm | seReg | sneReg => cases h; exact .goesOn (.skipIf p s _)
  | skp x | sknp x => cases h; exact .keySkip p _ s x _
  | ldVKey x => cases h; exact .waits x rfl
  | drw | ldVMem => cases h; exact .checked fun _ => {}
  | ldBV x =>
    cases h
    refine .checked fun hr => { mem := .inr ⟨decimalDigits (s.readV x), ?_, rfl⟩ }
    have hfits := rangeFault_eq_none.mp hr
    simp [decimalDigits, memSize]; omega
  | ldMemV x =>
    cases h
    refine .checked fun hr => { mem := .inr ⟨blockOut s.v x, ?_, rfl⟩ }
    have hfits := rangeFault_eq_none.mp hr
    rw [blockOut_length, memSize]; omega
  | cls | ldImm | addImm | ldReg | orReg | andReg | xorReg | addReg | subReg | shr | subnReg | shl | ldI | rnd | ldVDt
  | ldDtV | ldStV | addIV | ldFV =>
    cases h; exact .goesOn {}

end Sys2Proof.Machine
end

section
/-! SUPPORT. The invariant of the machine, and the wait of FX0A, kept by every step and event. -/

namespace Sys2Proof.Machine

/-! ### The invariant -/

/-- A slot that the stack does not hold reads as 0, so the bound on return addresses holds of every number. -/
theorem State.PcOk.slot_le {s : State} (h : s.PcOk) (j : Nat) : (s.slot j).toNat ≤ 0x1000 := by
  obtain ⟨-, -, hslots⟩ := h
  by_cases hj : j < s.stack.length
  · exact hslots j hj
  · simp [State.slot, hj]

/-- A fatal error keeps the invariant: HALT_PC is the PC, which stays (R201, R202). -/
theorem State.InvIn.raiseFatal {p : Params} {s : State} (h : s.InvIn p) {c : HaltCause} (hc : c ≠ .none) (w a : Word) :
    (s.raiseFatal c s.pc w a).InvIn p := by
  obtain ⟨hmem, hstack, -, hpc, -, hslots⟩ := h
  exact ⟨hmem, hstack, ⟨fun _ => rfl, by simp [hc], fun hrun => absurd rfl hrun, fun _ => rfl⟩, hpc, nofun, hslots⟩

/-- The start of a wait keeps the invariant: the FX0A was fetched at PC, which stays (R173). -/
theorem State.InvIn.wait {p : Params} {s : State} (h : s.InvIn p) (hm : s.run.mode = .running)
    (hf : s.pc.toNat ≤ 0xFFE) (x : Nibble) :
    ({ s with run := { s.run with mode := .waitKey, waitReg := x } } : State).InvIn p := by
  obtain ⟨hmem, hstack, ⟨-, hcause, hinfo, -⟩, hpc, -, hslots⟩ := h
  have hrun : s.run.mode ≠ .halted := by simp [hm]
  exact ⟨hmem, hstack, ⟨fun hw => absurd rfl hw, ⟨nofun, fun _ => hcause.2 hrun⟩, fun _ => hinfo hrun, nofun⟩, hpc,
    fun _ => hf, hslots⟩

theorem GoesOn.memory_wf {p : Params} {s t : State} (h : GoesOn p s t) (hs : Memory.wf s.mem = true) :
    Memory.wf t.mem = true := by
  obtain e | ⟨bytes, hfits, e⟩ := h.mem <;> rw [e]
  · exact hs
  · exact writeBlock_wf bytes hs hfits

theorem GoesOn.stackOk {p : Params} {s t : State} (h : GoesOn p s t) (hs : s.StackOk p) : t.StackOk p := by
  obtain ⟨hlen, hsp⟩ := hs
  obtain ⟨e, hle⟩ | ⟨hfree, e, he⟩ := h.stack
  · exact ⟨by rw [e, hlen], by omega⟩
  · exact ⟨by rw [e, List.length_set, hlen], by omega⟩

/-- A pushed return address is PC + 2, at most 0x1000, and the highest PC is that of JP V0 (R23, R103). -/
theorem GoesOn.pcOk {p : Params} {s t : State} (h : GoesOn p s t) (hs : s.PcOk) (hm : s.run.mode = .running)
    (hf : s.pc.toNat ≤ 0xFFE) : t.PcOk := by
  refine ⟨?_, by simp [h.run, hm], fun j hj => ?_⟩
  · obtain e | e | hle | ⟨j, e⟩ := h.pc
    · rw [e, BitVec.toNat_add]; simp; omega
    · rw [e, BitVec.toNat_add]; simp; omega
    · exact hle
    · rw [e]; exact (hs.slot_le j).trans (by decide)
  · obtain ⟨e, -⟩ | ⟨-, e, -⟩ := h.stack
    · rw [State.slot, e]; exact hs.slot_le j
    · have hslot := slot_set s s.sp j (s.pc + 2) s.sp
      rw [State.slot, e]
      refine (congrArg BitVec.toNat hslot).trans_le ?_
      split
      · simp; omega
      · exact hs.slot_le j

theorem GoesOn.keeps_inv {p : Params} {s t : State} (h : GoesOn p s t) (hs : s.InvIn p) (hm : s.run.mode = .running)
    (hf : s.pc.toNat ≤ 0xFFE) : t.InvIn p := by
  obtain ⟨hmem, hstack, ⟨hreg, hcause, hinfo, -⟩, hpc⟩ := hs
  refine ⟨h.memory_wf hmem, h.stackOk hstack, ?_, h.pcOk hpc hm hf⟩
  rw [State.RunOk, h.run, h.haltInfo]
  exact ⟨hreg, hcause, hinfo, by simp [hm]⟩

theorem stepWith_keeps_inv {p : Params} {s t : State} (hs : s.InvIn p) (h : stepWith p s = .next t) : t.InvIn p := by
  obtain ⟨-, e⟩ | ⟨-, -, a, -, e⟩ | ⟨-, -, -, e⟩ | ⟨hm, hf, i, -, e⟩ := stepWith_cases p s <;> rw [e] at h
  · cases h; exact hs
  · cases h; exact hs.raiseFatal (by decide) _ _
  · cases h; exact hs.raiseFatal (by decide) _ _
  · cases execWith_answers h with
    | faults c a hc => exact hs.raiseFatal hc _ _
    | waits x => exact hs.wait hm hf x
    | goesOn hg => exact hg.keeps_inv hs hm hf

/-- A step answers a next state, and the step event is that state. -/
theorem stepWith_next (p : Params) (s : State) : stepWith p s = .next (stepEventWith p s) := by
  have hnext : ∃ t, stepWith p s = .next t := by
    obtain ⟨-, e⟩ | ⟨-, -, a, -, e⟩ | ⟨-, -, -, e⟩ | ⟨-, -, i, -, e⟩ := stepWith_cases p s
    · exact ⟨_, e⟩
    · exact ⟨_, e⟩
    · exact ⟨_, e⟩
    · rw [e]; exact execWith_next p i s
  obtain ⟨t, ht⟩ := hnext
  rw [ht, stepEventWith_of_next ht]

theorem keyDown_keeps_inv {p : Params} {s : State} (hs : s.InvIn p) (k : Nibble) : (keyDown k s).InvIn p := by
  by_cases hm : s.run.mode = .waitKey
  · obtain ⟨hmem, hstack, ⟨-, hcause, hinfo, -⟩, -, hwait, hslots⟩ := hs
    have hf := hwait hm
    have hrun : s.run.mode ≠ .halted := by simp [hm]
    have hpc : (s.pc + 2).toNat ≤ 0x10FE := by simp; omega
    rw [keyDown_waiting k hm]
    exact ⟨hmem, hstack, ⟨fun _ => rfl, ⟨nofun, fun _ => hcause.2 hrun⟩, fun _ => hinfo hrun, nofun⟩, hpc, nofun, hslots⟩
  · rw [keyDown_not_waiting k hm]; exact hs

theorem load_keeps_inv {p : Params} {s : State} (hs : s.InvIn p) (bytes : List Byte) : (load bytes s).1.InvIn p := by
  obtain ⟨hmem, hrest⟩ := hs
  unfold load
  split
  · exact ⟨hmem, hrest⟩
  · rename_i hfits
    exact ⟨writeBlock_wf bytes hmem (by rw [memSize]; rw [maxRom] at hfits; omega), hrest⟩

theorem timerTick_keeps_inv {p : Params} {s : State} (hs : s.InvIn p) : (timerTick s).InvIn p := by
  by_cases hm : s.run.mode = .halted
  · rw [timerTick_halted hm]; exact hs
  · rw [timerTick_counting hm]; exact hs

/-- Settles O58: a step by what its instruction can answer, the other events one by one. -/
theorem stepKeepsTheInvariant : Obligations.StepKeepsTheInvariant := by
  refine ⟨fun s t hs h => ?_, fun p s t => stepWith_keeps_inv, fun p e s hs => ?_⟩
  · rw [← stepIsTheParametersOfThisHardware] at h
    exact stepWith_keeps_inv hs h
  · cases e with
    | step => exact stepWith_keeps_inv hs (stepWith_next p s)
    | timerTick => exact timerTick_keeps_inv hs
    | keyDown k => exact keyDown_keeps_inv hs k
    | keyUp k => exact hs
    | load bytes => exact load_keeps_inv hs bytes

/-- Settles O9. -/
theorem everyStepAnswersANextState : Obligations.EveryStepAnswersANextState := fun s =>
  ⟨_, (stepIsTheParametersOfThisHardware s).symm.trans (stepWith_next Config.params s)⟩

/-! ### FX0A (R173, R174) -/

/-- A step that leaves the engine waiting was waiting already or has fetched the FX0A that PC addresses. -/
theorem stepWith_keeps_waitOk {p : Params} {s t : State} (hs : s.WaitOk) (h : stepWith p s = .next t) : t.WaitOk := by
  obtain ⟨-, e⟩ | ⟨-, -, a, -, e⟩ | ⟨-, -, -, e⟩ | ⟨hm, hf, i, hd, e⟩ := stepWith_cases p s <;> rw [e] at h
  · cases h; exact hs
  · cases h; exact nofun
  · cases h; exact nofun
  · cases execWith_answers h with
    | faults c a hc => exact nofun
    | waits x hi => exact fun _ => ⟨hf, hi ▸ (encode_of_decodeWordIn hd).symm⟩
    | goesOn hg => intro hw; rw [hg.run, hm] at hw; cases hw

theorem timerTick_keeps_waitOk {s : State} (hs : s.WaitOk) : (timerTick s).WaitOk := by
  by_cases hm : s.run.mode = .halted
  · rw [timerTick_halted hm]; exact hs
  · rw [timerTick_counting hm]; exact hs

theorem keyDown_keeps_waitOk {s : State} (hs : s.WaitOk) (k : Nibble) : (keyDown k s).WaitOk := by
  by_cases hm : s.run.mode = .waitKey
  · rw [keyDown_waiting k hm]; exact nofun
  · rw [keyDown_not_waiting k hm]; exact hs

/-- Settles O59. -/
theorem waitingPcAddressesItsInstruction : Obligations.WaitingPcAddressesItsInstruction := by
  refine ⟨nofun, fun p e s hs hload => ?_⟩
  cases e with
  | step => exact stepWith_keeps_waitOk hs (stepWith_next p s)
  | timerTick => exact timerTick_keeps_waitOk hs
  | keyDown k => exact keyDown_keeps_waitOk hs k
  | keyUp k => exact hs
  | load bytes => exact absurd rfl (hload bytes)

end Sys2Proof.Machine
end

section
/-! SUPPORT. Frames: what an instruction, a step and a sequence of events leave as it was (10_state.md R20 to R36). -/

namespace Sys2Proof.Machine

/-! ### The parts that an update leaves, continued -/

theorem SamePart.trans {s t u : State} {q : Part} (h : SamePart s t q) (k : SamePart t u q) : SamePart s u q := by
  cases q with
  | v | mem | key => exact fun a => (k a).trans (h a)
  | disp => exact fun r c => (k r c).trans (h r c)
  | _ => exact Eq.trans k h

theorem KeepsAllBut.trans {l : List Part} {s t u : State} (h : KeepsAllBut l s t) (k : KeepsAllBut l t u) :
    KeepsAllBut l s u := fun q hq => (h q hq).trans (k q hq)

section
variable {l : List Part} {s t : State}

theorem KeepsAllBut.skipIf (h : KeepsAllBut l s t) (hpc : .pc ∈ l) (c : Bool) : KeepsAllBut l s (t.skipIf c) :=
  h.setPc hpc _

theorem KeepsAllBut.withDisp (h : KeepsAllBut l s t) (hdisp : .disp ∈ l) (d : Display) :
    KeepsAllBut l s { t with disp := d } := by
  intro q hq
  cases q with
  | disp => exact absurd hdisp hq
  | _ => exact h _ hq

theorem KeepsAllBut.withSp (h : KeepsAllBut l s t) (hsp : .sp ∈ l) (n : Nat) : KeepsAllBut l s { t with sp := n } := by
  intro q hq
  cases q with
  | sp => exact absurd hsp hq
  | _ => exact h _ hq

theorem KeepsAllBut.withDt (h : KeepsAllBut l s t) (hdt : .dt ∈ l) (b : Byte) : KeepsAllBut l s { t with dt := b } := by
  intro q hq
  cases q with
  | dt => exact absurd hdt hq
  | _ => exact h _ hq

theorem KeepsAllBut.withSt (h : KeepsAllBut l s t) (hst : .st ∈ l) (b : Byte) : KeepsAllBut l s { t with st := b } := by
  intro q hq
  cases q with
  | st => exact absurd hst hq
  | _ => exact h _ hq

theorem KeepsAllBut.withDraws (h : KeepsAllBut l s t) (hd : .draws ∈ l) (n : Nat) :
    KeepsAllBut l s { t with draws := n } := by
  intro q hq
  cases q with
  | draws => exact absurd hd hq
  | _ => exact h _ hq

theorem KeepsAllBut.withKey (h : KeepsAllBut l s t) (hk : .key ∈ l) (key : Keypad) :
    KeepsAllBut l s { t with key := key } := by
  intro q hq
  cases q with
  | key => exact absurd hk hq
  | _ => exact h _ hq

theorem KeepsAllBut.withPacer (h : KeepsAllBut l s t) (hp : .pacer ∈ l) (pacer : Pacer) :
    KeepsAllBut l s { t with pacer := pacer } := by
  intro q hq
  cases q with
  | pacer => exact absurd hp hq
  | _ => exact h _ hq

theorem KeepsAllBut.withRun (h : KeepsAllBut l s t) (hr : .run ∈ l) (run : Run) :
    KeepsAllBut l s { t with run := run } := by
  intro q hq
  cases q with
  | run => exact absurd hr hq
  | _ => exact h _ hq

theorem KeepsAllBut.withLoaded (h : KeepsAllBut l s t) (hl : .loaded ∈ l) (b : Bool) :
    KeepsAllBut l s { t with loaded := b } := by
  intro q hq
  cases q with
  | loaded => exact absurd hl hq
  | _ => exact h _ hq

/-- I after FX55 and FX65 differs from I before only when LOAD_STORE_INCREMENTS_I (R145, R146). -/
theorem KeepsAllBut.withIndexAfterBlock (h : KeepsAllBut l s t) {increments : Bool} (hi : increments = true → .i ∈ l)
    (x : Nibble) : KeepsAllBut l s { t with i := indexAfterBlock increments t.i x } := by
  cases increments with
  | false => exact h
  | true => exact h.withI (hi rfl) _

/-- A fatal error writes RUN and HALT_INFO alone (R201). -/
theorem KeepsAllBut.raiseFatal (hr : .run ∈ l) (hi : .haltInfo ∈ l) (c : HaltCause) (w a : Word) :
    KeepsAllBut l s (s.raiseFatal c s.pc w a) := by
  obtain ⟨-, -, hkeeps⟩ := haltsWith_raiseFatal s c w a
  exact hkeeps.mono (by simp [hr, hi])

theorem KeepsAllBut.checked (h : KeepsAllBut l s t) (hr : .run ∈ l) (hi : .haltInfo ∈ l) (fault : Option Word)
    (i : Instr) : KeepsAllBut l s (s.checked fault i t) := by
  obtain ⟨a, -, e⟩ | ⟨-, e⟩ := s.checked_cases fault i t <;> rw [e]
  · exact .raiseFatal hr hi _ _ _
  · exact h

theorem KeepsAllBut.keySkip (hpc : .pc ∈ l) (hr : .run ∈ l) (hi : .haltInfo ∈ l) (x : Nibble) (i : Instr)
    (wanted : Bool) : KeepsAllBut l s (s.keySkip x i wanted) := by
  unfold State.keySkip
  split
  · exact .raiseFatal hr hi _ _ _
  · exact (KeepsAllBut.refl l s).skipIf hpc _

end

/-! ### What an instruction leaves -/

/-- An instruction writes no part but those its rule names, and I where LOAD_STORE_INCREMENTS_I says so. -/
theorem execWith_keeps {p : Params} {i : Instr} {s t : State} {l : List Part} (h : execWith p i s = .next t)
    (hl : mayWrite i ⊆ l) (hi : p.loadStoreIncrementsI = true → .i ∈ l) : KeepsAllBut l s t := by
  have hs := KeepsAllBut.refl l s
  cases i <;> simp only [mayWrite, List.cons_subset, List.nil_subset, and_true] at hl
  case cls => cases h; exact (hs.withDisp hl.1 _).advancePc hl.2
  case ret g =>
    obtain ⟨hsp, hpc, hr, hh⟩ := hl
    cases h
    obtain ⟨-, e⟩ | ⟨n, -, e⟩ := s.pop_cases (.ret g) fun target t => t.setPc target <;> rw [e]
    · exact .raiseFatal hr hh _ _ _
    · exact (hs.withSp hsp n).setPc hpc _
  case call a =>
    obtain ⟨hstack, hsp, hpc, hr, hh⟩ := hl
    cases h
    obtain ⟨-, e⟩ | ⟨-, e⟩ := s.push_cases p.stackDepth (s.pc + 2) (.call a) fun t => t.setPc (addrOperand a) <;> rw [e]
    · exact .raiseFatal hr hh _ _ _
    · exact (hs.withStack hstack hsp _ _).setPc hpc _
  case jp | jpV0 => cases h; exact hs.setPc hl _
  case seImm | sneImm | seReg | sneReg => cases h; exact hs.skipIf hl _
  case ldImm | addImm | ldReg | orReg | andReg | xorReg | addReg | subReg | shr | subnReg | shl | ldVDt =>
    cases h; exact (hs.withV hl.1 _).advancePc hl.2
  case rnd =>
    obtain ⟨hv, hpc, hd⟩ := hl
    cases h; exact ((hs.withDraws hd _).withV hv _).advancePc hpc
  case ldI | addIV | ldFV => cases h; exact (hs.withI hl.1 _).advancePc hl.2
  case drw =>
    obtain ⟨hdisp, hv, hpc, hr, hh⟩ := hl
    cases h; exact (((hs.withDisp hdisp _).withV hv _).advancePc hpc).checked hr hh _ _
  case skp | sknp =>
    obtain ⟨hpc, hr, hh⟩ := hl
    cases h; exact .keySkip hpc hr hh _ _ _
  case ldVKey => cases h; exact hs.withRun hl _
  case ldDtV => cases h; exact (hs.withDt hl.1 _).advancePc hl.2
  case ldStV => cases h; exact (hs.withSt hl.1 _).advancePc hl.2
  case ldBV =>
    obtain ⟨hm, hpc, hr, hh⟩ := hl
    cases h; exact ((hs.withMem hm _).advancePc hpc).checked hr hh _ _
  case ldMemV x =>
    obtain ⟨hm, hpc, hr, hh⟩ := hl
    have hmem := hs.withMem hm (writeBlock s.mem s.i.toNat (blockOut s.v x))
    cases h; exact ((hmem.withIndexAfterBlock hi _).advancePc hpc).checked hr hh _ _
  case ldVMem =>
    obtain ⟨hv, hpc, hr, hh⟩ := hl
    cases h; exact (((hs.withV hv _).withIndexAfterBlock hi _).advancePc hpc).checked hr hh _ _

/-- On this hardware an instruction writes no part but those its rule names. -/
theorem exec_keeps {i : Instr} {s t : State} (h : exec i s = .next t) : KeepsAllBut (mayWrite i) s t :=
  execWith_keeps ((execWith_params i s).trans h) (List.Subset.refl _) nofun

/-- A block written from I on, checked against its last offset, leaves the bytes outside I to that offset (R52, R56). -/
theorem readMem_checked_writeBlock {s t : State} {k : Nat} {bytes : List Byte} (hlen : bytes.length = k + 1)
    (ht : t.mem = writeBlock s.mem s.i.toNat bytes) (i : Instr) {a : Nat} (ha : a < s.i.toNat ∨ s.i.toNat + k < a) :
    (s.checked (rangeFault s.i k) i t).readMem a = s.readMem a := by
  obtain ⟨w, -, e⟩ | ⟨-, e⟩ := s.checked_cases (rangeFault s.i k) i t <;> rw [e, State.readMem]
  · rfl
  · rw [ht]; exact memRead_writeBlock_outside bytes s.mem (by omega)

theorem exec_readMem_outside {i : Instr} {s t : State} (h : exec i s = .next t) {a : Nat}
    (ha : ∀ k, lastOffset i = some k → a < s.i.toNat ∨ s.i.toNat + k < a) : t.readMem a = s.readMem a := by
  cases i with
  | ldBV x => cases h; exact readMem_checked_writeBlock rfl rfl _ (ha 2 rfl)
  | ldMemV x => cases h; exact readMem_checked_writeBlock (blockOut_length s.v x) rfl _ (ha x.toNat rfl)
  | _ => exact exec_keeps h .mem (by simp [mayWrite]) a

theorem exec_slot_other {i : Instr} {s t : State} (h : exec i s = .next t) :
    t.stack.length = s.stack.length ∧ ∀ j, j ≠ s.sp → t.slot j = s.slot j := by
  cases i with
  | call a =>
    cases h
    obtain ⟨-, e⟩ | ⟨-, e⟩ := s.push_cases Config.params.stackDepth (s.pc + 2) (.call a) fun t =>
      t.setPc (addrOperand a) <;> rw [e]
    · exact ⟨rfl, fun _ _ => rfl⟩
    · exact ⟨List.length_set, fun j hj => (slot_set s s.sp j (s.pc + 2) (s.sp + 1)).trans (if_neg fun hc => hj hc.1)⟩
  | _ =>
    have hstack : t.stack = s.stack := exec_keeps h .stack (by simp [mayWrite])
    exact ⟨by rw [hstack], fun j _ => by rw [State.slot, hstack, State.slot]⟩

/-- Settles O13. -/
theorem noInstructionWritesMoreThanItsRule : Obligations.NoInstructionWritesMoreThanItsRule := fun _ _ _ h =>
  ⟨exec_keeps h, fun _ ha => exec_readMem_outside h ha, exec_slot_other h⟩

/-- Settles O14: the destination registers of each kind of write, and the frame for the instructions that write none. -/
theorem noInstructionWritesAnotherRegister : Obligations.NoInstructionWritesAnotherRegister := by
  intro i s t r h hr
  cases i with
  | ldImm x | addImm x | ldReg x | orReg x | andReg x | xorReg x | rnd x | ldVDt x =>
    cases h
    have hx : r ≠ x := by simpa [mayWriteReg] using hr
    exact (regGet_regSet _ _ _ _).trans (if_neg hx)
  | addReg x | subReg x | shr x | subnReg x | shl x =>
    cases h
    obtain ⟨hx, hf⟩ : r ≠ x ∧ r ≠ 0xF := by simpa [mayWriteReg] using hr
    exact State.readV_writeFlagged_other s hx hf _ _
  | drw x y n =>
    cases h
    have hf : r ≠ 0xF := by simpa [mayWriteReg] using hr
    obtain ⟨a, -, e⟩ | ⟨-, e⟩ := s.checked_cases (spriteFault s.i n) (.drw x y n) _ <;> rw [e]
    · rfl
    · exact (regGet_regSet _ _ _ _).trans (if_neg hf)
  | ldVMem x =>
    cases h
    have hx : ¬ r.toNat ≤ x.toNat := by simpa [mayWriteReg] using hr
    obtain ⟨a, -, e⟩ | ⟨-, e⟩ := s.checked_cases (rangeFault s.i x.toNat) (.ldVMem x) _ <;> rw [e]
    · rfl
    · exact (regGet_blockIn _ s.v r).trans (by rw [dif_neg (by simp; omega)]; rfl)
  | _ => exact exec_keeps h .v (by simp [mayWrite]) r

end Sys2Proof.Machine
end

section
/-! SUPPORT. One step from the way it starts, the instructions of the stack, and what no step reads (10_state.md R24 to
R36, R41). -/

namespace Sys2Proof.Machine

/-! ### A step from the way it starts (R41, R71, R77, R83) -/

theorem stepWith_of_not_running (p : Params) {s : State} (hm : s.run.mode ≠ .running) : stepWith p s = .next s := by
  obtain ⟨-, e⟩ | ⟨hr, -⟩ | ⟨hr, -⟩ | ⟨hr, -⟩ := stepWith_cases p s
  · exact e
  all_goals exact absurd hr hm

theorem stepWith_of_fetchFault (p : Params) {s : State} (hm : s.run.mode = .running) (hf : s.pc.toNat > 0xFFE) :
    stepWith p s =
      .next (s.raiseFatal .outOfBoundsAccess s.pc 0 (if s.pc.toNat > 0xFFF then s.pc else 0x1000)) := by
  simp only [stepWith, startStepIn, hm, fetchFault, if_pos hf]

theorem stepWith_of_unknownOpcode {p : Params} {s : State} (hm : s.run.mode = .running) (hf : s.pc.toNat ≤ 0xFFE)
    (hd : decodeWordIn p.strictDecode s.fetchWord = none) :
    stepWith p s = .next (s.raiseFatal .unknownOpcode s.pc s.fetchWord 0) := by
  simp only [stepWith, startStepIn, hm, fetchFault, if_neg (Nat.not_lt.mpr hf), hd]

theorem stepWith_of_decodes {p : Params} {s : State} {i : Instr} (hm : s.run.mode = .running)
    (hf : s.pc.toNat ≤ 0xFFE) (hd : decodeWordIn p.strictDecode s.fetchWord = some i) :
    stepWith p s = execWith p i s := by
  simp only [stepWith, startStepIn, hm, fetchFault, if_neg (Nat.not_lt.mpr hf), hd]

theorem step_of_fetches {s : State} {i : Instr} (h : Fetches s i) : step s = exec i s := by
  obtain ⟨hm, hf, hd⟩ := h
  rw [← stepIsTheParametersOfThisHardware, ← execWith_params]
  exact stepWith_of_decodes hm hf hd

/-- The word that an instruction reports in HALT_WORD is the fetched one (R202). -/
theorem Fetches.encode_eq {s : State} {i : Instr} (h : Fetches s i) : encode i = s.fetchWord := by
  obtain ⟨-, -, hd⟩ := h
  exact encode_of_decodeWordIn hd

/-- Settles O8. -/
theorem stepOutsideRunningChangesNothing : Obligations.StepOutsideRunningChangesNothing := by
  intro p s hm
  refine ⟨(stepIsTheParametersOfThisHardware s).symm.trans (stepWith_of_not_running _ hm), ?_⟩
  rw [transitionWith, stepEventWith_of_next (stepWith_of_not_running p hm), stepReply]
  cases hmode : s.run.mode with
  | running => exact absurd hmode hm
  | waitKey => rfl
  | halted => rfl

/-! ### RET and CALL (R101, R103) -/

theorem State.pop_of_sp_eq_zero {s : State} (h : s.sp = 0) (i : Instr) (after : Word → State → State) :
    s.pop i after = s.raiseFatal .stackUnderflow s.pc (encode i) 0 := by
  simp only [State.pop, h]

theorem State.pop_of_sp_eq_succ {s : State} {n : Nat} (h : s.sp = n + 1) (i : Instr) (after : Word → State → State) :
    s.pop i after = after (s.slot n) { s with sp := n } := by
  simp only [State.pop, h]

/-- Settles O16. -/
theorem retPopsThePc : Obligations.RetPopsThePc := by
  intro g s n hn
  refine ⟨_, congrArg Host.Outcome.next (State.pop_of_sp_eq_succ hn (.ret g) _), rfl, rfl, ?_⟩
  exact ((KeepsAllBut.refl _ s).withSp (by simp) n).setPc (by simp) _

/-- Settles O18. -/
theorem callPushesAndJumps : Obligations.CallPushesAndJumps := by
  intro a s ⟨hlen, _⟩ hfree
  obtain ⟨t, ht, hsp, hpc, hslot, hkeeps⟩ := execCallWith_free a hfree.ne (hlen ▸ hfree)
  exact ⟨t, ht, hsp, hpc, (exec_slot_other (i := .call a) ht).1.trans hlen, hslot, hkeeps⟩

/-- Settles O19. -/
theorem stackFaultsHalt : Obligations.StackFaultsHalt := by
  refine fun g a s => ⟨fun hf hsp => ?_, fun hf hsp => ?_⟩
  · rw [step_of_fetches hf, ← hf.encode_eq]
    exact ⟨_, congrArg Host.Outcome.next (State.pop_of_sp_eq_zero hsp (.ret g) _), haltsWith_raiseFatal s _ _ _⟩
  · rw [step_of_fetches hf, ← hf.encode_eq]
    exact execCallWith_full a hsp

/-! ### What no step reads (R26, R32, R34, R35) -/

/-- The state with other values in the parts that only the host reads: ST, LOADED, the pacer and HALT_INFO. -/
def State.withHost (s : State) (b : Byte) (l : Bool) (q : Pacer) (info : HaltInfo) : State :=
  { s with st := b, loaded := l, pacer := q, haltInfo := info }

/-- `u` is `t` with the host's values given, but for the HALT_INFO of a machine that has halted. -/
def HostApart (b : Byte) (l : Bool) (q : Pacer) (info : HaltInfo) (t u : State) : Prop :=
  (t.run.mode = .halted ∧ u = t.withHost b l q t.haltInfo) ∨ (t.run.mode ≠ .halted ∧ u = t.withHost b l q info)

section
variable {b : Byte} {l : Bool} {q : Pacer} {info : HaltInfo} {s t u : State}

theorem HostApart.raiseFatal (c : HaltCause) (pc w a : Word) :
    HostApart b l q info (s.raiseFatal c pc w a) ((s.withHost b l q info).raiseFatal c pc w a) :=
  .inl ⟨rfl, rfl⟩

theorem HostApart.checked (h : HostApart b l q info t u) (fault : Option Word) (i : Instr) :
    HostApart b l q info (s.checked fault i t) ((s.withHost b l q info).checked fault i u) := by
  cases fault with
  | some a => exact .raiseFatal _ _ _ _
  | none => exact h

theorem HostApart.keySkip (hm : s.run.mode ≠ .halted) (x : Nibble) (i : Instr) (wanted : Bool) :
    HostApart b l q info (s.keySkip x i wanted) ((s.withHost b l q info).keySkip x i wanted) := by
  have hread : (s.withHost b l q info).readV x = s.readV x := rfl
  rw [State.keySkip, State.keySkip, hread]
  split
  · exact .raiseFatal _ _ _ _
  · exact .inr ⟨hm, rfl⟩

theorem exec_withHost {i : Instr} (hi : ∀ x, i ≠ .ldStV x) (hm : s.run.mode ≠ .halted) (h : exec i s = .next t) :
    ∃ u, exec i (s.withHost b l q info) = .next u ∧ HostApart b l q info t u := by
  cases i with
  | ldStV x => exact absurd rfl (hi x)
  | ret g =>
    cases h
    refine ⟨_, rfl, ?_⟩
    cases hsp : s.sp with
    | zero =>
      rw [State.pop_of_sp_eq_zero hsp, State.pop_of_sp_eq_zero (s := s.withHost b l q info) hsp]
      exact .raiseFatal _ _ _ _
    | succ n =>
      rw [State.pop_of_sp_eq_succ hsp, State.pop_of_sp_eq_succ (s := s.withHost b l q info) hsp]
      exact .inr ⟨hm, rfl⟩
  | call a =>
    cases h
    refine ⟨_, rfl, ?_⟩
    by_cases hsp : s.sp = Config.params.stackDepth
    · rw [State.push, State.push, if_pos hsp, if_pos (show (s.withHost b l q info).sp = _ from hsp)]
      exact .raiseFatal _ _ _ _
    · rw [State.push, State.push, if_neg hsp, if_neg (show ¬ (s.withHost b l q info).sp = _ from hsp)]
      exact .inr ⟨hm, rfl⟩
  | skp x | sknp x => cases h; exact ⟨_, rfl, .keySkip hm x _ _⟩
  | drw | ldBV | ldMemV | ldVMem =>
    cases h
    refine ⟨_, rfl, HostApart.checked ?_ _ _⟩
    exact .inr ⟨hm, rfl⟩
  | ldVKey => cases h; exact ⟨_, rfl, .inr ⟨nofun, rfl⟩⟩
  | _ => cases h; exact ⟨_, rfl, .inr ⟨hm, rfl⟩⟩

theorem step_withHost (hm : s.run.mode = .running) (h : step s = .next t) :
    ∃ b' u, step (s.withHost b l q info) = .next u ∧ HostApart b' l q info t u ∧
      (((∃ x, Fetches s (.ldStV x)) ∧ b' = t.st) ∨ ((∀ x, ¬ Fetches s (.ldStV x)) ∧ b' = b)) := by
  by_cases hf : s.pc.toNat ≤ 0xFFE
  · cases hd : decodeWord s.fetchWord with
    | none =>
      rw [← stepIsTheParametersOfThisHardware, stepWith_of_unknownOpcode hm hf hd] at h
      cases h
      refine ⟨b, _, ?_, .raiseFatal .unknownOpcode s.pc s.fetchWord 0, .inr ⟨fun x ⟨_, _, hx⟩ => ?_, rfl⟩⟩
      · rw [← stepIsTheParametersOfThisHardware]
        exact stepWith_of_unknownOpcode (s := s.withHost b l q info) hm hf hd
      · cases hd.symm.trans hx
    | some i =>
      have hs : Fetches s i := ⟨hm, hf, hd⟩
      have hs' : Fetches (s.withHost b l q info) i := ⟨hm, hf, hd⟩
      rw [step_of_fetches hs] at h
      rw [step_of_fetches hs']
      have hrun : s.run.mode ≠ .halted := by simp [hm]
      by_cases hi : ∃ x, i = .ldStV x
      · obtain ⟨x, rfl⟩ := hi
        cases h
        exact ⟨_, _, rfl, .inr ⟨hrun, rfl⟩, .inl ⟨⟨x, hs⟩, rfl⟩⟩
      · obtain ⟨u, hu, hapart⟩ := exec_withHost (b := b) (l := l) (q := q) (info := info)
          (fun x e => hi ⟨x, e⟩) hrun h
        exact ⟨b, u, hu, hapart, .inr ⟨fun x ⟨_, _, hx⟩ => hi ⟨x, Option.some.inj (hd.symm.trans hx)⟩, rfl⟩⟩
  · rw [← stepIsTheParametersOfThisHardware, stepWith_of_fetchFault _ hm (Nat.not_le.mp hf)] at h
    cases h
    refine ⟨b, _, ?_, .raiseFatal .outOfBoundsAccess s.pc 0 _, .inr ⟨fun x ⟨_, hx, _⟩ => hf hx, rfl⟩⟩
    rw [← stepIsTheParametersOfThisHardware]
    exact stepWith_of_fetchFault (s := s.withHost b l q info) _ hm (Nat.not_le.mp hf)

end

/-- Settles O15: from RUNNING by the instruction fetched, and otherwise the step changes neither state. -/
theorem hostOnlyStateIsNeverRead : Obligations.HostOnlyStateIsNeverRead := by
  intro s t b l q info h
  by_cases hm : s.run.mode = .running
  · obtain ⟨b', u, hu, hapart, hst⟩ := step_withHost (b := b) (l := l) (q := q) (info := info) hm h
    obtain ⟨ht, rfl⟩ | ⟨ht, rfl⟩ := hapart
    · exact ⟨b', t.haltInfo, hu, hst, .inl ⟨hm, ht, rfl⟩⟩
    · exact ⟨b', info, hu, hst, .inr ⟨fun hc => ht hc.2, rfl⟩⟩
  · rw [(stepOutsideRunningChangesNothing Config.params s hm).1] at h
    cases h
    exact ⟨b, info, (stepOutsideRunningChangesNothing Config.params (s.withHost b l q info) hm).1,
      .inr ⟨fun x hx => hm hx.1, rfl⟩, .inr ⟨fun hc => hm hc.1, rfl⟩⟩

end Sys2Proof.Machine
end

section
/-! SUPPORT. Sequences of events and of calls: the frames of the events, the pacer, and the calls before a load
(10_state.md R34, R41 to R48, 70_reset_and_hazards.md R226). -/

namespace Sys2Proof.Machine

/-! ### What an event leaves -/

theorem timerTick_keeps (s : State) : KeepsAllBut [.dt, .st] s (timerTick s) := by
  have hs := KeepsAllBut.refl [.dt, .st] s
  by_cases hm : s.run.mode = .halted
  · rw [timerTick_halted hm]; exact hs
  · rw [timerTick_counting hm]; exact (hs.withDt (by simp) (countDown s.dt)).withSt (by simp) _

theorem writeKey_keeps (s : State) (k : Nibble) (b : Bool) : KeepsAllBut [.key] s (s.writeKey k b) :=
  (KeepsAllBut.refl _ s).withKey (by simp) _

theorem keyDown_keeps {s : State} (hm : s.run.mode ≠ .waitKey) (k : Nibble) : KeepsAllBut [.key] s (keyDown k s) := by
  rw [keyDown_not_waiting k hm]; exact writeKey_keeps s k true

theorem setKey_keeps {s : State} (hm : s.run.mode ≠ .waitKey) (k : Nat) : KeepsAllBut [.key] s (setKey k s).1 := by
  unfold setKey
  split
  · exact .refl _ s
  · exact keyDown_keeps hm _

theorem unsetKey_keeps (s : State) (k : Nat) : KeepsAllBut [.key] s (unsetKey k s).1 := by
  unfold unsetKey
  split
  · exact .refl _ s
  · exact writeKey_keeps s _ false

theorem addAcc_keeps (s : State) (d : Rat) : KeepsAllBut [.pacer] s (s.addAcc d) :=
  (KeepsAllBut.refl _ s).withPacer (by simp) _

theorem stepEventWith_of_not_running (p : Params) {s : State} (hm : s.run.mode ≠ .running) : stepEventWith p s = s :=
  stepEventWith_of_next (stepWith_of_not_running p hm)

/-- A condition and a frame that every event listed keeps are kept by the whole sequence. -/
theorem runEventsWith_keeps {p : Params} {P : State → Prop} {l : List Part} {es : List Event}
    (hev : ∀ e ∈ es, ∀ s, P s → P (transitionWith p e s).1 ∧ KeepsAllBut l s (transitionWith p e s).1)
    {s : State} (hs : P s) : P (runEventsWith p s es) ∧ KeepsAllBut l s (runEventsWith p s es) := by
  induction es generalizing s with
  | nil => exact ⟨hs, .refl l s⟩
  | cons e rest ih =>
    rw [List.forall_mem_cons] at hev
    obtain ⟨hP, hkeeps⟩ := hev.1 s hs
    obtain ⟨hP', hkeeps'⟩ := ih hev.2 hP
    exact ⟨hP', hkeeps.trans hkeeps'⟩

/-- Where the frame holds RUN, the mode is a condition that the sequence keeps. -/
theorem runEventsWith_keeps_of_mode {p : Params} {m : RunMode} {l : List Part} {es : List Event} (hl : .run ∉ l)
    (hev : ∀ e ∈ es, ∀ s : State, s.run.mode = m → KeepsAllBut l s (transitionWith p e s).1) {s : State}
    (hs : s.run.mode = m) : KeepsAllBut l s (runEventsWith p s es) := by
  refine (runEventsWith_keeps (P := fun s => s.run.mode = m) (fun e he t ht => ?_) hs).2
  have hkeeps := hev e he t ht
  have hrun : (transitionWith p e t).1.run = t.run := hkeeps .run hl
  exact ⟨by rw [hrun, ht], hkeeps⟩

/-- Settles O41. -/
theorem onlyAKeyDownEndsAWait : Obligations.OnlyAKeyDownEndsAWait := by
  refine fun p es s hm hes => runEventsWith_keeps_of_mode (by simp) (fun e he t ht => ?_) hm
  obtain rfl | rfl | ⟨k, rfl⟩ := hes e he
  · rw [transitionWith, stepEventWith_of_not_running p (by simp [ht])]; exact .refl _ t
  · exact (timerTick_keeps t).mono (by simp)
  · exact (writeKey_keeps t k false).mono (by simp)

/-- Settles O42. -/
theorem haltedIsTerminal : Obligations.HaltedIsTerminal := by
  refine fun p es s hm hes => runEventsWith_keeps_of_mode (by simp) (fun e he t ht => ?_) hm
  cases e with
  | step => rw [transitionWith, stepEventWith_of_not_running p (by simp [ht])]; exact .refl _ t
  | timerTick => rw [transitionWith, timerTick_halted ht]; exact .refl _ t
  | keyDown k => exact keyDown_keeps (by simp [ht]) k
  | keyUp k => exact writeKey_keeps t k false
  | load bytes => exact absurd rfl (hes _ he bytes)

/-! ### The timers and the key calls (R42, R44) -/

/-- Settles O44. -/
theorem timerTickCountsDown : Obligations.TimerTickCountsDown := by
  refine fun s => ⟨fun hm => ⟨?_, ?_, timerTick_keeps s⟩, timerTick_halted⟩
  · rw [timerTick_counting hm]; exact countDown_toNat s.dt
  · rw [timerTick_counting hm]; exact countDown_toNat s.st

/-- Settles O48. -/
theorem keyCallsCheckTheIndex : Obligations.KeyCallsCheckTheIndex := by
  refine fun k s => ⟨fun hk => ⟨if_pos hk, if_pos hk⟩, fun j => ?_⟩
  have hj : ¬ j.toNat > 15 := by omega
  rw [setKey, unsetKey, if_neg hj, if_neg hj, BitVec.ofNat_toNat, BitVec.setWidth_eq]
  exact ⟨rfl, rfl⟩

/-! ### The load (R222) -/

theorem load_of_tooLong {bytes : List Byte} (h : bytes.length > maxRom) (s : State) : load bytes s = (s, .romTooLarge) :=
  if_pos h

theorem load_of_fits {bytes : List Byte} (h : bytes.length ≤ maxRom) (s : State) :
    load bytes s = ({ s with mem := writeBlock s.mem 0x200 bytes, loaded := true }, .loaded bytes.length) :=
  if_neg (Nat.not_lt.mpr h)

/-- Settles O47. -/
theorem loadCopiesTheImage : Obligations.LoadCopiesTheImage := by
  refine fun bytes s hm => ⟨fun hfits => ?_, fun hlong => load_of_tooLong hlong s⟩
  rw [load_of_fits hfits]
  have hkeeps := (KeepsAllBut.refl [.mem, .loaded] s).withMem (by simp) (writeBlock s.mem 0x200 bytes)
  refine ⟨rfl, rfl, fun a => ?_, hkeeps.withLoaded (by simp) true⟩
  split
  · rename_i ha
    obtain ⟨k, rfl⟩ := Nat.exists_eq_add_of_le ha.1
    have hk : k < bytes.length := by omega
    have hsize : 0x200 + bytes.length ≤ memSize := by rw [memSize]; omega
    refine (memRead_writeBlock_inside bytes hm hsize hk).trans ?_
    rw [Nat.add_sub_cancel_left, List.getD_eq_getElem _ _ hk]
  · exact memRead_writeBlock_outside bytes s.mem (by omega)

/-! ### The pacer (R34, R226) -/

/-- No step writes the pacer. -/
theorem stepEventWith_pacer (p : Params) (s : State) : (stepEventWith p s).pacer = s.pacer := by
  obtain ⟨-, e⟩ | ⟨-, -, a, -, e⟩ | ⟨-, -, -, e⟩ | ⟨-, -, i, -, e⟩ := stepWith_cases p s
  · rw [stepEventWith_of_next e]
  · rw [stepEventWith_of_next e]; rfl
  · rw [stepEventWith_of_next e]; rfl
  · have hkeeps : KeepsAllBut (.i :: mayWrite i) s (stepEventWith p s) :=
      execWith_keeps (e.symm.trans (stepWith_next p s)) (List.subset_cons_self _ _) fun _ => List.mem_cons_self
    exact hkeeps .pacer (by cases i <;> simp [mayWrite])

/-- With at least as many turns as ACC holds whole periods, the loop leaves the pacer as R34 has it between calls. -/
theorem pacerLoop_pacerOk {p : Params} (turns : Nat) {s : State} (h0 : 0 ≤ s.pacer.acc)
    (hacc : s.pacer.acc < ((turns : Nat) + 1) * period p.stepsPerTimerTick)
    (hcount : s.pacer.stepCount < p.stepsPerTimerTick) : (pacerLoop p turns s).1.PacerOk p.stepsPerTimerTick := by
  have hper := period_pos (Nat.one_le_of_lt hcount)
  induction turns generalizing s with
  | zero => exact ⟨h0, by simpa [pacerLoop] using hacc, hcount⟩
  | succ turns ih =>
    rw [pacerLoop]
    split
    · rename_i hle
      have hpacer := stepEventWith_pacer p (s.addAcc (-period p.stepsPerTimerTick))
      have hnext : (pacerLoop p turns (countStep p.stepsPerTimerTick
          (stepEventWith p (s.addAcc (-period p.stepsPerTimerTick))))).1.PacerOk p.stepsPerTimerTick := by
        refine ih ?_ ?_ (countStep_stepCount_lt ?_)
        · rw [countStep_acc, hpacer, State.addAcc_acc]; linarith
        · rw [countStep_acc, hpacer, State.addAcc_acc]; push_cast at hacc; linarith
        · rw [hpacer]; exact hcount
      dsimp only
      split
      · exact ⟨by simp, by simpa using hper, by rw [dropTime_stepCount, hpacer]; exact hcount⟩
      · exact hnext
      · exact hnext
    · rename_i hlt
      exact ⟨h0, not_le.mp hlt, hcount⟩

/-- Settles O50: the loop has a turn for every whole period in ACC. -/
theorem advanceConsumesEveryWholePeriod : Obligations.AdvanceConsumesEveryWholePeriod := by
  intro p e s hn he hs
  have ⟨hacc, _, hcount⟩ := hs
  have hloop : (pacerLoop p (periodsIn p.stepsPerTimerTick (s.addAcc e).pacer.acc) (s.addAcc e)).1.PacerOk
      p.stepsPerTimerTick := by
    have h0 : 0 ≤ (s.addAcc e).pacer.acc := add_nonneg hacc he
    exact pacerLoop_pacerOk _ h0 (lt_periodsIn_succ hn h0) hcount
  unfold advanceWith
  split
  · exact hs
  · exact hloop
  · exact hloop

/-! ### The calls before a load (R48) -/

/-- A load that is no longer open stays so, and the host may not make it. -/
theorem legalCallsWith_load_closed (p : Params) (s : State) (calls : List Call) (bytes : List Byte) :
    legalCallsWith p false s (calls ++ [.event (.load bytes)]) = false := by
  induction calls generalizing s with
  | nil => rfl
  | cons c rest ih => rw [List.cons_append, legalCallsWith, Bool.false_and, ih, Bool.and_false]

/-- An advance that completes no step period makes no step (R226). -/
theorem pacerLoop_of_acc_lt {p : Params} (turns : Nat) {s : State} (h : s.pacer.acc < period p.stepsPerTimerTick) :
    pacerLoop p turns s = (s, .ok) := by
  cases turns with
  | zero => rfl
  | succ turns => exact if_neg (not_le.mpr h)

theorem advanceWith_keeps {p : Params} {e : Rat} {s : State} (h : s.pacer.acc + e < period p.stepsPerTimerTick) :
    KeepsAllBut [.pacer] s (advanceWith p e s).1 := by
  have hloop : ∀ turns, pacerLoop p turns (s.addAcc e) = (s.addAcc e, .ok) := fun turns => pacerLoop_of_acc_lt turns h
  unfold advanceWith
  split
  · exact .refl _ s
  · rw [hloop]; exact addAcc_keeps s e
  · rw [hloop]; exact addAcc_keeps s e

/-- A call that leaves the load open, made while no FX0A waits, writes the key flags and the pacer alone. -/
theorem performWith_keeps_of_leavesLoadOpen {p : Params} {c : Call} {s : State} (hm : s.run.mode ≠ .waitKey)
    (h : leavesLoadOpen p s c = true) : KeepsAllBut [.key, .pacer] s (performWith p c s).1 := by
  have hkey : ∀ q, q ∈ [Part.key] → q ∈ [Part.key, Part.pacer] := by simp
  cases c with
  | event e =>
    cases e with
    | step | timerTick => cases h
    | keyDown k => exact (keyDown_keeps hm k).mono hkey
    | keyUp k => exact (writeKey_keeps s k false).mono hkey
    | load bytes =>
      have hlong : bytes.length > maxRom := of_decide_eq_true h
      rw [performWith, transitionWith, load_of_tooLong hlong]
      exact .refl _ s
  | setKey k => exact (setKey_keeps hm k).mono hkey
  | unsetKey k => exact (unsetKey_keeps s k).mono hkey
  | advance e => exact (advanceWith_keeps (of_decide_eq_true h)).mono (by simp)

theorem runCallsWith_keeps_before_load {p : Params} {calls : List Call} {bytes : List Byte} {s : State}
    (hm : s.run.mode ≠ .waitKey) (h : legalCallsWith p true s (calls ++ [.event (.load bytes)]) = true) :
    KeepsAllBut [.key, .pacer] s (runCallsWith p s calls) := by
  induction calls generalizing s with
  | nil => exact .refl _ s
  | cons c rest ih =>
    rw [List.cons_append, legalCallsWith, Bool.true_and] at h
    obtain ⟨-, hrest⟩ := Bool.and_eq_true_iff.mp h
    cases hopen : leavesLoadOpen p s c with
    | false => rw [hopen, legalCallsWith_load_closed] at hrest; cases hrest
    | true =>
      rw [hopen] at hrest
      have hkeeps := performWith_keeps_of_leavesLoadOpen hm hopen
      have hrun : (performWith p c s).1.run = s.run := hkeeps .run (by simp)
      exact hkeeps.trans (ih (by rw [hrun]; exact hm) hrest)

/-- Settles O60. -/
theorem legalLoadMeetsTheResetState : Obligations.LegalLoadMeetsTheResetState := fun _ _ _ h =>
  runCallsWith_keeps_before_load nofun h

end Sys2Proof.Machine
end

section
/-! SUPPORT. The canonical form of memory, the glyph that FX29 points at, and the small instructions and outputs
(10_state.md R27 to R33, R43, R46). -/

namespace Sys2Proof.Machine

/-! ### Memory is its canonical form (R29, R50) -/

theorem lookup_above {low a : Nat} (ha : memSize ≤ a) {m : Memory} (h : canonicalFrom low m = true) :
    lookup m a = none := by
  induction m generalizing low with
  | nil => rfl
  | cons c rest ih =>
    obtain ⟨b, v⟩ := c
    obtain ⟨-, hb, -, hrest⟩ := canonicalFrom_cons.mp h
    rw [lookup, if_neg (by omega)]
    exact ih hrest

/-- No byte listed in a canonical list is its reset content. -/
theorem lookup_ne_resetByte {low a : Nat} {v : Byte} {m : Memory} (h : canonicalFrom low m = true)
    (hl : lookup m a = some v) : v ≠ resetByte a := by
  induction m generalizing low with
  | nil => cases hl
  | cons c rest ih =>
    obtain ⟨b, u⟩ := c
    obtain ⟨-, -, hu, hrest⟩ := canonicalFrom_cons.mp h
    rw [lookup] at hl
    split at hl
    · rename_i hb; cases hl; exact hb ▸ hu
    · exact ih hrest hl

/-- A canonical list lists exactly the bytes that differ from their reset contents. -/
theorem lookup_eq_of_memRead {m : Memory} (h : Memory.wf m = true) (a : Nat) :
    lookup m a = if memRead m a = resetByte a then none else some (memRead m a) := by
  cases hl : lookup m a with
  | none => simp [memRead, hl]
  | some v => simp [memRead, hl, lookup_ne_resetByte h hl]

theorem head_le_of_lookup {low a b : Nat} {u v : Byte} {rest : Memory} (h : canonicalFrom low ((b, u) :: rest) = true)
    (hl : lookup ((b, u) :: rest) a = some v) : b ≤ a := by
  obtain ⟨-, hb, hu, hrest⟩ := canonicalFrom_cons.mp h
  by_contra hlt
  rw [lookup_below (not_le.mp hlt) (canonicalFrom_cons.mpr ⟨le_refl b, hb, hu, hrest⟩)] at hl
  cases hl

/-- Canonical lists that list the same byte at every address are the same list. -/
theorem canonical_ext {low low' : Nat} {m n : Memory} (hm : canonicalFrom low m = true)
    (hn : canonicalFrom low' n = true) (h : ∀ a, lookup m a = lookup n a) : m = n := by
  induction m generalizing n low low' with
  | nil =>
    cases n with
    | nil => rfl
    | cons d rest' => simpa [lookup] using h d.1
  | cons c rest ih =>
    cases n with
    | nil => simpa [lookup] using h c.1
    | cons d rest' =>
      obtain ⟨a, v⟩ := c
      obtain ⟨b, u⟩ := d
      obtain ⟨-, -, -, hrest⟩ := canonicalFrom_cons.mp hm
      obtain ⟨-, -, -, hrest'⟩ := canonicalFrom_cons.mp hn
      have hba : b ≤ a := head_le_of_lookup hn ((h a).symm.trans (if_pos rfl))
      have hab : a ≤ b := head_le_of_lookup hm ((h b).trans (if_pos rfl))
      obtain rfl : a = b := le_antisymm hab hba
      obtain rfl : v = u := by simpa [lookup] using h a
      refine congrArg _ (ih hrest hrest' fun k => ?_)
      by_cases hk : a = k
      · subst hk; rw [lookup_below (Nat.lt_succ_self a) hrest, lookup_below (Nat.lt_succ_self a) hrest']
      · simpa [lookup, hk] using h k

/-- Settles O34. -/
theorem memoryIsCanonical : Obligations.MemoryIsCanonical := by
  intro m n hm hn h
  refine canonical_ext hm hn fun a => ?_
  by_cases ha : a < memSize
  · rw [lookup_eq_of_memRead hm, lookup_eq_of_memRead hn, h a ha]
  · rw [lookup_above (Nat.not_lt.mp ha) hm, lookup_above (Nat.not_lt.mp ha) hn]

/-! ### The font (R33, R143) -/

theorem readMem_reset (a : Nat) : State.reset.readMem a = Config.fontImage.getD a 0 := by
  simp [State.readMem, State.reset, memRead, lookup, resetByte, Config.params]

/-- Settles O28. -/
theorem fontAddressPointsAtTheGlyph : Obligations.FontAddressPointsAtTheGlyph := by
  intro x s hfont
  obtain ⟨t, ht, hi, -, hkeeps⟩ := execLdFVWith_spec Config.params.fontBase x s
  refine ⟨t, ht, fun k hk => ?_⟩
  have hbase : Config.params.fontBase.toNat = 0 := rfl
  have haddr : t.i.toNat = 5 * ((s.readV x).toNat % 16) := by rw [hi, hbase]; omega
  have hlt : 5 * ((s.readV x).toNat % 16) + k < 80 := by omega
  have hmem : t.readMem (t.i.toNat + k) = s.readMem (t.i.toNat + k) := hkeeps .mem (by simp) _
  rw [hmem, haddr, hfont _ hlt, readMem_reset, List.getD_eq_getElem _ _ hlt]
  exact List.getElem?_eq_getElem hlt

/-! ### CXKK (R43, R132) -/

theorem readV_randomInto (r : Byte) (x : Nibble) (kk : Byte) (s : State) (q : Nibble) :
    (randomInto r x kk s).readV q = if q = x then r &&& kk else s.readV q :=
  State.readV_writeV s x q (r &&& kk)

/-- Settles O26. -/
theorem randomIsMasked : Obligations.RandomIsMasked := by
  refine fun x kk s => ⟨⟨_, Config.randByte s.draws, rfl, ?_, ?_, fun q hq => ?_, rfl, ?_⟩,
    fun r => ⟨?_, fun q hq => ?_, rfl⟩⟩
  · rw [readV_randomInto, if_pos rfl]
  · rintro rfl; rw [readV_randomInto, if_pos rfl]; exact BitVec.and_zero
  · rw [readV_randomInto, if_neg hq]; rfl
  · exact exec_keeps (i := .rnd x kk) rfl
  · rw [readV_randomInto, if_pos rfl]
  · rw [readV_randomInto, if_neg hq]

/-! ### FX0A (R173) and the screen (R46) -/

/-- Settles O39. -/
theorem waitForKeyStartsTheWait : Obligations.WaitForKeyStartsTheWait := fun x _ =>
  ⟨_, rfl, rfl, rfl, rfl, exec_keeps (i := .ldVKey x) rfl⟩

/-- Settles O52. -/
theorem screenShowsThePixels : Obligations.ScreenShowsThePixels := by
  refine fun s => ⟨by simp [screen], fun r c => ?_⟩
  refine ⟨(s.disp[r.val]'r.isLt).toList.map BitVec.ofBool, by simp [screen], by simp, ?_⟩
  cases hp : pixel s.disp r c <;> simp_all [pixel]

end Sys2Proof.Machine
end

section
/-! SUPPORT. The instructions that store to memory through I and load from it, in range (20_memory.md R56, R61). -/

namespace Sys2Proof.Machine

/-- What two frames both leave out is all that can differ. -/
theorem KeepsAllBut.inter {l l' : List Part} {s t : State} (h : KeepsAllBut l s t) (h' : KeepsAllBut l' s t) :
    KeepsAllBut (l ∩ l') s t := by
  intro q hq
  by_cases hl : q ∈ l
  · exact h' q fun hl' => hq (List.mem_inter_iff.mpr ⟨hl, hl'⟩)
  · exact h q hl

/-! ### FX33 (R144) -/

/-- Settles O29: the bytes stored are the decimal digits, hundreds first. -/
theorem bcdStoresThreeDigits : Obligations.BcdStoresThreeDigits := by
  intro x s hm hrange
  have hsize : s.i.toNat + (decimalDigits (s.readV x)).length ≤ memSize := Nat.succ_le_succ hrange
  have hstored (k : Nat) (hk : k < 3) :=
    congrArg BitVec.toNat (memRead_writeBlock_inside (decimalDigits (s.readV x)) hm hsize hk)
  refine ⟨_, congrArg Host.Outcome.next (State.checked_inRange hrange (.ldBV x) _), ?_, ?_, ?_, fun a ha => ?_, rfl, ?_⟩
  · exact (hstored 0 (by decide)).trans (by simp [decimalDigits])
  · exact (hstored 1 (by decide)).trans (by simp [decimalDigits])
  · exact (hstored 2 (by decide)).trans (by simp [decimalDigits])
  · exact memRead_writeBlock_outside _ s.mem ha
  · exact ((KeepsAllBut.refl _ s).withMem (by simp) _).advancePc (by simp)

/-! ### FX55 and FX65 with I left as it was (R145, R146) -/

/-- Settles O30: on this hardware I is not advanced. -/
theorem registerStoreWritesTheBlock : Obligations.RegisterStoreWritesTheBlock := by
  intro x s hm hrange
  obtain ⟨t, ht, hinside, houtside, -, hpc, hkeeps⟩ := execLdMemVWith_inRange false hrange
  exact ⟨t, ht, hinside hm, houtside, hpc, hkeeps.inter (exec_keeps (i := .ldMemV x) ht)⟩

/-- Settles O31: on this hardware I is not advanced. -/
theorem registerLoadReadsTheBlock : Obligations.RegisterLoadReadsTheBlock := by
  intro x s hrange
  obtain ⟨t, ht, hregs, -, hpc, hkeeps⟩ := execLdVMemWith_inRange false hrange
  exact ⟨t, ht, hregs, hpc, hkeeps.inter (exec_keeps (i := .ldVMem x) ht)⟩

/-! ### Code that the program has stored (R61) -/

/-- Settles O33: the two bytes at the next PC are two of the block stored. -/
theorem storedWordIsFetchedNext : Obligations.StoredWordIsFetchedNext := by
  intro x j k s hm hrange hpcle hkj hkx haddr
  obtain ⟨t, ht, hinside, -, hpc, -⟩ := registerStoreWritesTheBlock x s hm hrange
  have hnext : t.pc.toNat = s.i.toNat + j.toNat := by rw [hpc, haddr]; bv_omega
  have hhigh : t.readMem t.pc.toNat = s.readV j := hnext ▸ hinside j (by omega)
  have hlow : t.readMem (t.pc.toNat + 1) = s.readV k := by
    rw [hnext, Nat.add_assoc, ← hkj]; exact hinside k hkx
  exact ⟨t, ht, by rw [State.fetchWord, hhigh, hlow, joinWord]⟩

end Sys2Proof.Machine
end

section
/-! SUPPORT. The decoder inverts the encoder on the well-formed instructions, and which words it knows and how many
(30_encoding.md R72 to R81). -/

namespace Sys2Proof.Machine

/-! ### The decoder inverts the encoder (R72, R75, R76) -/

theorem wellFormedIn_iff {strict : Bool} {i : Instr} :
    i.wellFormedIn strict = true ↔ (strict = true → i.ignoredField = 0) := by
  cases strict <;> simp [Instr.wellFormedIn]

/-- The word of an instruction decodes to it exactly when it is well-formed: the fields of a packed word are what was
packed, and only the check of STRICT_DECODE on an ignored field is left (R75). -/
theorem decodeWordIn_encode {strict : Bool} {i : Instr} :
    decodeWordIn strict (encode i) = some i ↔ i.wellFormedIn strict = true := by
  rw [wellFormedIn_iff]
  cases i with
  | cls | ret => simp [decodeWordIn, decodeFamily0, encode, Instr.ignoredField]
  | seReg | sneReg => simp [decodeWordIn, encode, Instr.ignoredField]
  | ldReg | orReg | andReg | xorReg | addReg | subReg | shr | subnReg | shl =>
    simp [decodeWordIn, decodeFamily8, encode, Instr.ignoredField]
  | skp | sknp => simp [decodeWordIn, decodeFamilyE, encode, Instr.ignoredField]
  | ldVDt | ldVKey | ldDtV | ldStV | addIV | ldFV | ldBV | ldMemV | ldVMem =>
    simp [decodeWordIn, decodeFamilyF, encode, Instr.ignoredField]
  | jp | call | seImm | sneImm | ldImm | addImm | ldI | jpV0 | rnd | drw =>
    simp [decodeWordIn, encode, Instr.ignoredField]

/-- Settles O1. -/
theorem decodeOfEncodeIsTheInstruction : Obligations.DecodeOfEncodeIsTheInstruction := fun _ _ h =>
  decodeWordIn_encode.mpr h

/-- Settles O2: the word is that of its instruction, which therefore decodes from its own word. -/
theorem encodeOfDecodeIsTheWord : Obligations.EncodeOfDecodeIsTheWord := fun _ _ _ h =>
  have hword := encode_of_decodeWordIn h
  ⟨hword, decodeWordIn_encode.mp (hword ▸ h)⟩

/-- Settles O5, word by word. -/
theorem wordsOfThePatternsDecode : Obligations.WordsOfThePatternsDecode := by
  unfold Obligations.WordsOfThePatternsDecode; decide

/-! ### Which words decode (R77) -/

theorem isSome_decodeFamily0 {strict : Bool} {w : Word} :
    (decodeFamily0 strict w).isSome ↔ (strict = true → fieldX w = 0) ∧ fieldKk w ∈ ([0xE0, 0xEE] : List Byte) := by
  unfold decodeFamily0
  split
  · simp_all
  · split
    · simp_all
    · split <;> simp_all

theorem isSome_decodeFamily8 {w : Word} : (decodeFamily8 w).isSome ↔
    fieldN w ∈ ([0x0, 0x1, 0x2, 0x3, 0x4, 0x5, 0x6, 0x7, 0xE] : List Nibble) := by
  unfold decodeFamily8
  split <;> simp_all

theorem isSome_decodeFamilyE {w : Word} : (decodeFamilyE w).isSome ↔ fieldKk w ∈ ([0x9E, 0xA1] : List Byte) := by
  unfold decodeFamilyE
  split
  · simp_all
  · split <;> simp_all

theorem isSome_decodeFamilyF {w : Word} : (decodeFamilyF w).isSome ↔
    fieldKk w ∈ ([0x07, 0x0A, 0x15, 0x18, 0x1E, 0x29, 0x33, 0x55, 0x65] : List Byte) := by
  unfold decodeFamilyF
  split <;> simp_all

/-- The selectors of family 0x8 and the unknown ones (R77) are all 16. -/
theorem selector8_not_mem_iff (n : Nibble) : n ∉ ([0x0, 0x1, 0x2, 0x3, 0x4, 0x5, 0x6, 0x7, 0xE] : List Nibble) ↔
    n ∈ ([0x8, 0x9, 0xA, 0xB, 0xC, 0xD, 0xF] : List Nibble) := by
  revert n; decide

/-- Settles O3, family by family. -/
theorem unknownWordsAreExactlyTheListed : Obligations.UnknownWordsAreExactlyTheListed := by
  intro strict w
  rw [← Option.not_isSome_iff_eq_none]
  unfold decodeWordIn
  split
  case h_1 hop => simp [hop, isSome_decodeFamily0]; tauto
  case h_9 hop => simp only [isSome_decodeFamily8, selector8_not_mem_iff]; simp [hop]
  case h_15 hop => simp [hop, isSome_decodeFamilyE]
  case h_16 =>
    have hop : fieldOp w = 0xF := by simp only [imp_false] at *; bv_omega
    simp [hop, isSome_decodeFamilyF]
  case h_6 hop | h_10 hop => simp [hop]
  case h_2 hop | h_3 hop | h_4 hop | h_5 hop | h_7 hop | h_8 hop | h_11 hop | h_12 hop | h_13 hop | h_14 hop =>
    simp [hop]

/-! ### Counting the values of a width -/

/-- How many of the values of `w` bits satisfy a predicate. -/
def countWhere (w : Nat) (p : BitVec w → Bool) : Nat := (List.range (2 ^ w)).countP fun k => p (BitVec.ofNat w k)

theorem countWhere_of_forall {w : Nat} {p : BitVec w → Bool} (h : ∀ v, p v = true) : countWhere w p = 2 ^ w := by
  simp [countWhere, h]

/-- As many values as a list without repetition has satisfy membership in it. -/
theorem countWhere_mem {w : Nat} {p : BitVec w → Bool} {l : List (BitVec w)} (h : ∀ v, p v = true ↔ v ∈ l)
    (hl : l.Nodup) : countWhere w p = l.length := by
  rw [countWhere, List.countP_eq_length_filter, ← List.length_map BitVec.toNat (as := l)]
  refine List.Perm.length_eq ((List.perm_ext_iff_of_nodup (List.nodup_range.filter _)
    (hl.map fun _ _ => BitVec.eq_of_toNat_eq)).mpr fun k => ?_)
  simp only [List.mem_filter, List.mem_range, h, List.mem_map]
  constructor
  · exact fun ⟨hk, hmem⟩ => ⟨_, hmem, Nat.mod_eq_of_lt hk⟩
  · rintro ⟨v, hv, rfl⟩
    exact ⟨v.isLt, by rwa [BitVec.ofNat_toNat, BitVec.setWidth_eq]⟩

theorem countP_range_mul (p : Nat → Bool) (m n : Nat) :
    (List.range (m * n)).countP p = ∑ i ∈ Finset.range m, (List.range n).countP fun j => p (i * n + j) := by
  induction m with
  | zero => simp
  | succ m ih =>
    rw [Nat.succ_mul, List.range_add, List.countP_append, ih, Finset.sum_range_succ, List.countP_map]
    rfl

theorem ofNat_append_ofNat {a b i j : Nat} (hi : i < 2 ^ a) (hj : j < 2 ^ b) :
    BitVec.ofNat a i ++ BitVec.ofNat b j = BitVec.ofNat (a + b) (i * 2 ^ b + j) := by
  have hij : i * 2 ^ b + j < 2 ^ (a + b) := by rw [Nat.pow_add]; nlinarith
  apply BitVec.eq_of_toNat_eq
  rw [BitVec.toNat_append, BitVec.toNat_ofNat, BitVec.toNat_ofNat, BitVec.toNat_ofNat, Nat.mod_eq_of_lt hi,
    Nat.mod_eq_of_lt hj, Nat.mod_eq_of_lt hij, ← Nat.shiftLeft_add_eq_or_of_lt hj, Nat.shiftLeft_eq]

/-- Values counted by their high bits first. -/
theorem countWhere_append {a b : Nat} (p : BitVec (a + b) → Bool) :
    countWhere (a + b) p = ∑ i ∈ Finset.range (2 ^ a), countWhere b fun v => p (BitVec.ofNat a i ++ v) := by
  rw [countWhere, Nat.pow_add, countP_range_mul]
  refine Finset.sum_congr rfl fun i hi => List.countP_congr fun j hj => ?_
  simp only [ofNat_append_ofNat (Finset.mem_range.mp hi) (List.mem_range.mp hj)]

/-- Values counted whose low bits are in a list. -/
theorem countWhere_low_mem {a b : Nat} {p : BitVec (a + b) → Bool} {l : List (BitVec b)}
    (h : ∀ v, p v = true ↔ v.extractLsb' 0 b ∈ l) (hl : l.Nodup) : countWhere (a + b) p = 2 ^ a * l.length := by
  have hlow (i : Nat) : countWhere b (fun v => p (BitVec.ofNat a i ++ v)) = l.length :=
    countWhere_mem (fun v => by rw [h, BitVec.extractLsb'_append_eq_right]) hl
  simp only [countWhere_append, hlow, Finset.sum_const, Finset.card_range, smul_eq_mul]

/-! ### How many words decode (R81) -/

theorem fieldX_packAddr (op : Nibble) (v : Addr) : fieldX (packAddr op v) = v.extractLsb' 8 4 := by
  apply BitVec.eq_of_toNat_eq
  rw [fieldX_toNat, packAddr_toNat, BitVec.extractLsb'_toNat, Nat.shiftRight_eq_div_pow]
  omega
theorem fieldN_packAddr (op : Nibble) (v : Addr) : fieldN (packAddr op v) = v.extractLsb' 0 4 := by
  apply BitVec.eq_of_toNat_eq
  rw [fieldN_toNat, packAddr_toNat, BitVec.extractLsb'_toNat, Nat.shiftRight_zero]
  omega
theorem fieldKk_packAddr (op : Nibble) (v : Addr) : fieldKk (packAddr op v) = v.extractLsb' 0 8 := by
  apply BitVec.eq_of_toNat_eq
  rw [fieldKk_toNat, packAddr_toNat, BitVec.extractLsb'_toNat, Nat.shiftRight_zero]
  omega

/-- How many of the 4096 words of a family decode: two of 12 bits or all, or the selectors of `kk` at each `x`, or those
of `n` at each `x` and `y` (R75, R77). -/
def decodingInFamily (strict : Bool) (op : Nibble) : Nat :=
  match op with
  | 0x0#4 => if strict then 2 else 16 * 2
  | 0x5#4 | 0x9#4 => if strict then 256 * 1 else 4096
  | 0x8#4 => 256 * 9
  | 0xE#4 => 16 * 2
  | 0xF#4 => 16 * 9
  | _ => 4096

theorem countWhere_family (strict : Bool) (op : Nibble) :
    countWhere 12 (fun v => (decodeWordIn strict (packAddr op v)).isSome) = decodingInFamily strict op := by
  unfold decodingInFamily
  split
  case h_1 =>
    simp only [decodeWordIn, fieldOp_packAddr]
    cases strict with
    | false =>
      exact countWhere_low_mem (a := 4) (b := 8) (l := [0xE0, 0xEE])
        (fun v => by simp [isSome_decodeFamily0, fieldKk_packAddr]) (by decide)
    | true =>
      refine countWhere_mem (l := [0x0E0, 0x0EE]) (fun v => isSome_decodeFamily0.trans ?_) (by decide)
      simp only [forall_const, List.mem_cons, List.not_mem_nil, or_false, ← BitVec.toNat_inj, fieldX_toNat,
        fieldKk_toNat, packAddr_toNat, BitVec.ofNat_eq_ofNat, BitVec.toNat_ofNat]
      omega
  case h_2 | h_3 =>
    cases strict with
    | false => exact countWhere_of_forall fun v => by simp [decodeWordIn]
    | true =>
      exact countWhere_low_mem (a := 8) (b := 4) (l := [0])
        (fun v => by simp [decodeWordIn, fieldN_packAddr]) (by decide)
  case h_4 =>
    simp only [decodeWordIn, fieldOp_packAddr]
    exact countWhere_low_mem (a := 8) (b := 4)
      (fun v => isSome_decodeFamily8.trans (by rw [fieldN_packAddr])) (by decide)
  case h_5 =>
    simp only [decodeWordIn, fieldOp_packAddr]
    exact countWhere_low_mem (a := 4) (b := 8)
      (fun v => isSome_decodeFamilyE.trans (by rw [fieldKk_packAddr])) (by decide)
  case h_6 =>
    simp only [decodeWordIn, fieldOp_packAddr]
    exact countWhere_low_mem (a := 4) (b := 8)
      (fun v => isSome_decodeFamilyF.trans (by rw [fieldKk_packAddr])) (by decide)
  case h_7 h0 h5 h9 h8 hE hF =>
    refine countWhere_of_forall fun v => Option.isSome_iff_ne_none.mpr fun hnone => ?_
    have hlisted := (unknownWordsAreExactlyTheListed strict _).mp hnone
    simp_all

theorem countWhere_decodes (strict : Bool) : countWhere 16 (fun w => (decodeWordIn strict w).isSome) =
    ∑ op ∈ Finset.range 16, decodingInFamily strict (BitVec.ofNat 4 op) := by
  simp only [← countWhere_family]
  exact countWhere_append (a := 4) (b := 12) _

/-- Settles O4: the families' counts added up. -/
theorem countOfWordsThatDecode : Obligations.CountOfWordsThatDecode :=
  ⟨(countWhere_decodes false).trans (by decide), (countWhere_decodes true).trans (by decide)⟩

end Sys2Proof.Machine
end

section
/-! SUPPORT. The faults of fetch and dispatch, and why a step from RUNNING halts (30_encoding.md R71, R77;
60_exceptions.md R200, R204). -/

namespace Sys2Proof.Machine

/-! ### Fetch and dispatch (R71, R77, R83) -/

/-- Settles O6. -/
theorem stepRunsTheDecodedInstruction : Obligations.StepRunsTheDecodedInstruction := fun _ _ hm hf hd =>
  step_of_fetches ⟨hm, hf, hd⟩

/-- Settles O7. -/
theorem fetchAndDispatchFaultsHalt : Obligations.FetchAndDispatchFaultsHalt := by
  intro s hm
  rw [← stepIsTheParametersOfThisHardware]
  exact ⟨fun hf => ⟨_, stepWith_of_fetchFault _ hm hf, haltsWith_raiseFatal s _ _ _⟩,
    fun hf hd => ⟨_, stepWith_of_unknownOpcode hm hf hd, haltsWith_raiseFatal s _ _ _⟩⟩

/-- Settles O56: such a word is one of the unknown words. -/
theorem strictDecodeHaltsOnIgnoredFields : Obligations.StrictDecodeHaltsOnIgnoredFields := by
  intro p s hp hm hf hw
  have hd : decodeWordIn p.strictDecode s.fetchWord = none :=
    (unknownWordsAreExactlyTheListed _ _).mpr (.inr (.inr (.inr (.inr ⟨hp, hw⟩))))
  exact ⟨_, stepWith_of_unknownOpcode hm hf hd, haltsWith_raiseFatal s _ _ _⟩

/-! ### The fatal errors of an instruction (R101, R103, R140, R170) -/

/-- An instruction's own check fails: of the stack (R101, R103), of the bytes it accesses through I (R140), of the key
that V[x] names (R170). -/
inductive OwnFault (s : State) : Instr → HaltCause → Prop where
  | stackFull (a : Addr) (h : s.sp = 16) : OwnFault s (.call a) .stackOverflow
  | stackEmpty (g : Nibble) (h : s.sp = 0) : OwnFault s (.ret g) .stackUnderflow
  | range {i : Instr} {k : Nat} (hi : lastOffset i = some k) (h : s.i.toNat + k > 0xFFF) :
      OwnFault s i .outOfBoundsAccess
  | skp (x : Nibble) (h : (s.readV x).toNat > 0xF) : OwnFault s (.skp x) .outOfBoundsAccess
  | sknp (x : Nibble) (h : (s.readV x).toNat > 0xF) : OwnFault s (.sknp x) .outOfBoundsAccess

/-- An instruction raises its own fatal error where its check fails, and otherwise the engine is not halted by it. -/
inductive FaultsOrGoesOn (s : State) (i : Instr) : State → Prop where
  | faults {c : HaltCause} (a : Word) (h : OwnFault s i c) : FaultsOrGoesOn s i (s.raiseFatal c s.pc (encode i) a)
  | goesOn {t : State} (h : ∀ c, ¬ OwnFault s i c) (hm : t.run.mode ≠ .halted) : FaultsOrGoesOn s i t

section
variable {s t : State} {i : Instr} {c c' : HaltCause}

/-- An instruction has one check of its own. -/
theorem OwnFault.unique (h : OwnFault s i c) (h' : OwnFault s i c') : c = c' := by
  cases h with
  | stackFull | stackEmpty =>
    cases h' with
    | range hi => cases hi
    | _ => rfl
  | skp | sknp => cases h'; all_goals rfl
  | range hi =>
    cases h' with
    | stackFull | stackEmpty => cases hi
    | _ => rfl

theorem OwnFault.lastOffset_exceeds {k : Nat} (h : OwnFault s i c) (hi : lastOffset i = some k) :
    s.i.toNat + k > 0xFFF := by
  cases h with
  | range hk h => rwa [Option.some.inj (hi.symm.trans hk)]
  | _ => cases hi

theorem FaultsOrGoesOn.checked {k : Nat} (hi : lastOffset i = some k) (hm : t.run.mode ≠ .halted) :
    FaultsOrGoesOn s i (s.checked (rangeFault s.i k) i t) := by
  obtain ⟨a, hf, e⟩ | ⟨hf, e⟩ := s.checked_cases (rangeFault s.i k) i t <;> rw [e]
  · exact .faults a (.range hi (rangeFault_eq_some.mp hf).1)
  · exact .goesOn (fun c h => Nat.not_lt.mpr (rangeFault_eq_none.mp hf) (h.lastOffset_exceeds hi)) hm

theorem FaultsOrGoesOn.keySkip {x : Nibble} (hfault : (s.readV x).toNat > 0xF → OwnFault s i .outOfBoundsAccess)
    (hrange : ∀ c, OwnFault s i c → (s.readV x).toNat > 0xF) (hm : s.run.mode ≠ .halted) (wanted : Bool) :
    FaultsOrGoesOn s i (s.keySkip x i wanted) := by
  unfold State.keySkip
  split
  next hk => exact .faults _ (hfault (keyIndex_eq_none.mp hk))
  next k hk =>
    have hle : (s.readV x).toNat ≤ 0xF := keyIndex_eq_some.mp hk ▸ Nat.le_of_lt_succ k.isLt
    exact .goesOn (fun c h => Nat.not_lt.mpr hle (hrange c h)) hm

theorem FaultsOrGoesOn.drw {x y n : Nibble} (hm : t.run.mode ≠ .halted) :
    FaultsOrGoesOn s (.drw x y n) (s.checked (spriteFault s.i n) (.drw x y n) t) := by
  unfold spriteFault
  by_cases hn : n.toNat = 0
  · rw [if_neg (by omega)]
    exact .goesOn (fun | _, .range hi _ => by simp [lastOffset, hn] at hi) hm
  · rw [if_pos (by omega)]
    exact .checked (if_neg hn) hm

/-- Every instruction halts the engine exactly where its own check fails. -/
theorem exec_faultsOrGoesOn (hm : s.run.mode ≠ .halted) (h : exec i s = .next t) : FaultsOrGoesOn s i t := by
  cases i with
  | ret g =>
    cases h
    obtain ⟨h0, e⟩ | ⟨n, hn, e⟩ := s.pop_cases (.ret g) fun target t => t.setPc target <;> rw [e]
    · exact .faults 0 (.stackEmpty g h0)
    · exact .goesOn (fun | _, .stackEmpty _ h0 => by omega) hm
  | call a =>
    cases h
    obtain ⟨hf, e⟩ | ⟨hf, e⟩ := s.push_cases 16 (s.pc + 2) (.call a) fun t => t.setPc (addrOperand a)
    · exact e ▸ .faults 0 (.stackFull a hf)
    · exact e ▸ .goesOn (fun | _, .stackFull _ h => hf h) hm
  | skp x =>
    cases h
    exact .keySkip (.skp x) (fun | _, .skp _ h => h | _, .range hi _ => nomatch hi) hm true
  | sknp x =>
    cases h
    exact .keySkip (.sknp x) (fun | _, .sknp _ h => h | _, .range hi _ => nomatch hi) hm false
  | drw x y n => cases h; exact .drw hm
  | ldBV | ldMemV | ldVMem => cases h; exact .checked rfl hm
  | ldVKey => cases h; exact .goesOn (fun | _, .range hi _ => nomatch hi) nofun
  | _ => cases h; exact .goesOn (fun | _, .range hi _ => nomatch hi) hm

/-- An instruction halts the engine with the cause of its own fault, and only so. -/
theorem exec_halts_iff (hm : s.run.mode ≠ .halted) (h : exec i s = .next t) :
    t.run.haltCause = c ∧ t.run.mode = .halted ↔ OwnFault s i c := by
  cases exec_faultsOrGoesOn hm h with
  | faults a hown => exact ⟨fun ⟨e, _⟩ => e ▸ hown, fun hc => ⟨hown.unique hc, rfl⟩⟩
  | goesOn hno hrun => exact ⟨fun ⟨_, e⟩ => absurd e hrun, fun hc => absurd hc (hno c)⟩

/-! ### Why a step halts (R200, R204) -/

/-- Why a step from RUNNING halts: the fetch is out of bounds, the word is unknown, or the instruction
fetched faults. -/
inductive HaltReason (s : State) : HaltCause → Prop where
  | fetch (hf : s.pc.toNat > 0xFFE) : HaltReason s .outOfBoundsAccess
  | dispatch (hf : s.pc.toNat ≤ 0xFFE) (hd : decodeWord s.fetchWord = none) : HaltReason s .unknownOpcode
  | own {i : Instr} {c : HaltCause} (hi : Fetches s i) (h : OwnFault s i c) : HaltReason s c

theorem Fetches.unique {j : Instr} (h : Fetches s i) (h' : Fetches s j) : i = j := by
  obtain ⟨-, -, hd⟩ := h
  obtain ⟨-, -, hd'⟩ := h'
  exact Option.some.inj (hd.symm.trans hd')

/-- A step from RUNNING halts for one of these reasons, and for each of them with its cause. -/
theorem step_halts_iff (hm : s.run.mode = .running) (h : step s = .next t) :
    t.run.haltCause = c ∧ t.run.mode = .halted ↔ HaltReason s c := by
  by_cases hf : s.pc.toNat ≤ 0xFFE
  · cases hd : decodeWord s.fetchWord with
    | none =>
      rw [← stepIsTheParametersOfThisHardware, stepWith_of_unknownOpcode hm hf hd] at h
      cases h
      refine ⟨fun ⟨e, _⟩ => e ▸ .dispatch hf hd, fun hc => ⟨?_, rfl⟩⟩
      cases hc with
      | fetch hf' => omega
      | dispatch => rfl
      | own hi => obtain ⟨-, -, hsome⟩ := hi; cases hd.symm.trans hsome
    | some i =>
      have hi : Fetches s i := ⟨hm, hf, hd⟩
      rw [step_of_fetches hi] at h
      rw [exec_halts_iff (by simp [hm]) h]
      refine ⟨.own hi, fun hc => ?_⟩
      cases hc with
      | fetch hf' => omega
      | dispatch _ hd' => cases hd.symm.trans hd'
      | own hj h => exact hi.unique hj ▸ h
  · rw [← stepIsTheParametersOfThisHardware, stepWith_of_fetchFault _ hm (Nat.not_le.mp hf)] at h
    cases h
    refine ⟨fun ⟨e, _⟩ => e ▸ .fetch (Nat.not_le.mp hf), fun hc => ⟨?_, rfl⟩⟩
    cases hc with
    | fetch => rfl
    | dispatch hf' => exact absurd hf' hf
    | own hi => obtain ⟨-, hin, -⟩ := hi; exact absurd hin hf

theorem haltReason_unknownOpcode :
    HaltReason s .unknownOpcode ↔ s.pc.toNat ≤ 0xFFE ∧ decodeWord s.fetchWord = none where
  mp := fun | .dispatch hf hd => ⟨hf, hd⟩
  mpr := fun ⟨hf, hd⟩ => .dispatch hf hd

theorem haltReason_stackOverflow : HaltReason s .stackOverflow ↔ s.sp = 16 ∧ ∃ a, Fetches s (.call a) where
  mp := fun | .own (i := .call a) hi (.stackFull _ h) => ⟨h, a, hi⟩
  mpr := fun ⟨h, a, hi⟩ => .own hi (.stackFull a h)

theorem haltReason_stackUnderflow : HaltReason s .stackUnderflow ↔ s.sp = 0 ∧ ∃ g, Fetches s (.ret g) where
  mp := fun | .own (i := .ret g) hi (.stackEmpty _ h) => ⟨h, g, hi⟩
  mpr := fun ⟨h, g, hi⟩ => .own hi (.stackEmpty g h)

theorem haltReason_outOfBoundsAccess : HaltReason s .outOfBoundsAccess ↔
    s.pc.toNat > 0xFFE ∨ (∃ i k, Fetches s i ∧ lastOffset i = some k ∧ s.i.toNat + k > 0xFFF) ∨
    (∃ x, (Fetches s (.skp x) ∨ Fetches s (.sknp x)) ∧ (s.readV x).toNat > 0xF) where
  mp := fun
    | .fetch hf => .inl hf
    | .own hi (.range hk h) => .inr (.inl ⟨_, _, hi, hk, h⟩)
    | .own (i := .skp x) hi (.skp _ h) => .inr (.inr ⟨x, .inl hi, h⟩)
    | .own (i := .sknp x) hi (.sknp _ h) => .inr (.inr ⟨x, .inr hi, h⟩)
  mpr := fun
    | .inl hf => .fetch hf
    | .inr (.inl ⟨_, _, hi, hk, h⟩) => .own hi (.range hk h)
    | .inr (.inr ⟨x, .inl hi, h⟩) => .own hi (.skp x h)
    | .inr (.inr ⟨x, .inr hi, h⟩) => .own hi (.sknp x h)

theorem not_haltReason_none : ¬ HaltReason s .none := fun | .own _ h => nomatch h

end

/-- Settles O12, cause by cause. -/
theorem whyAStepHalts : Obligations.WhyAStepHalts := fun _ _ h hm =>
  ⟨(step_halts_iff hm h).trans haltReason_unknownOpcode, (step_halts_iff hm h).trans haltReason_stackOverflow,
    (step_halts_iff hm h).trans haltReason_stackUnderflow, (step_halts_iff hm h).trans haltReason_outOfBoundsAccess,
    fun hh hc => not_haltReason_none ((step_halts_iff hm h).mp ⟨hc, hh⟩)⟩

end Sys2Proof.Machine
end

section
/-! SUPPORT. Jumps, skips, a call and its return, and the run that has parked (40_control_transfer.md R101 to R108,
70_reset_and_hazards.md R231). -/

namespace Sys2Proof.Machine

/-! ### A call and its return (R101, R103) -/

/-- A part that reads the same again need not be left out of the frame. -/
theorem KeepsAllBut.restore {l : List Part} {s t : State} {q : Part} (h : KeepsAllBut (q :: l) s t)
    (hq : SamePart s t q) : KeepsAllBut l s t := by
  intro r hr
  by_cases hrq : r = q
  · exact hrq ▸ hq
  · exact h r (by simp [hrq, hr])

/-- Settles O20: RET pops the slot that CALL has just pushed. -/
theorem callThenReturnComesBack : Obligations.CallThenReturnComesBack := by
  intro a g s hstack hfree
  obtain ⟨t, ht, htsp, -, -, htslot, htkeeps⟩ := callPushesAndJumps a s hstack hfree
  obtain ⟨u, hu, husp, hupc, hukeeps⟩ := retPopsThePc g t s.sp htsp
  have hustack : u.stack = t.stack := hukeeps .stack (by simp)
  have hkeeps : KeepsAllBut [.sp, .stack, .pc] s u := (htkeeps.mono (by simp)).trans (hukeeps.mono (by simp))
  refine ⟨t, u, ht, hu, ?_, husp, fun j hj => ?_, hkeeps.restore husp⟩
  · rw [hupc, htslot, if_pos rfl]
  · rw [State.slot, hustack, ← State.slot, htslot, if_neg hj]

/-! ### A parked run (R231) -/

/-- The word fetched is read from PC and memory alone (R70). -/
theorem KeepsAllBut.fetchWord_eq {l : List Part} {s t : State} (h : KeepsAllBut l s t) (hpc : .pc ∉ l)
    (hmem : .mem ∉ l) : t.fetchWord = s.fetchWord := by
  have hp : t.pc = s.pc := h .pc hpc
  have hm (b : Nat) : t.readMem b = s.readMem b := h .mem hmem b
  rw [State.fetchWord, hp, hm, hm, State.fetchWord]

theorem State.Parked.of_keepsAllBut {s t : State} (hs : s.Parked) (h : KeepsAllBut [.dt, .st, .key] s t) : t.Parked := by
  have hrun : t.run = s.run := h .run (by simp)
  have hpc : t.pc = s.pc := h .pc (by simp)
  rwa [State.Parked, hrun, hpc, h.fetchWord_eq (by simp) (by simp)]

/-- A jump to itself leaves the state as it is, under both settings of STRICT_DECODE. -/
theorem State.Parked.stepWith_eq {s : State} (hs : s.Parked) (p : Params) : stepWith p s = .next s := by
  obtain ⟨hm, hf, a, hw, ha⟩ := hs
  have hd : decodeWordIn p.strictDecode s.fetchWord = some (.jp a) := by
    rw [hw, decodeWordIn_encode, wellFormedIn_iff]; exact fun _ => rfl
  calc stepWith p s = execWith p (.jp a) s := stepWith_of_decodes hm hf hd
    _ = .next (s.setPc s.pc) := by rw [← ha]; rfl
    _ = .next s := rfl

/-- Settles O53: every event but a load keeps the frame, and the frame keeps the state parked. -/
theorem parkedStaysParked : Obligations.ParkedStaysParked := by
  intro p es s hs hes
  refine ⟨(stepIsTheParametersOfThisHardware s).symm.trans (hs.stepWith_eq _), ?_⟩
  refine (runEventsWith_keeps (P := State.Parked) (fun e he t ht => ?_) hs).symm
  have hkeeps : KeepsAllBut [.dt, .st, .key] t (transitionWith p e t).1 := by
    cases e with
    | step => rw [transitionWith, stepEventWith_of_next (ht.stepWith_eq p)]; exact .refl _ t
    | timerTick => exact (timerTick_keeps t).mono (by simp)
    | keyDown k => exact (keyDown_keeps (by simp [ht.1]) k).mono (by simp)
    | keyUp k => exact (writeKey_keeps t k false).mono (by simp)
    | load bytes => exact absurd rfl (hes _ he bytes)
  exact ⟨ht.of_keepsAllBut hkeeps, hkeeps⟩

/-! ### Jumps (R102, R108) -/

/-- The target of JP V0 is at most 0x10FE, so the sum does not wrap (R108). -/
theorem addrOperand_add_zextByte_toNat (a : Addr) (b : Byte) :
    (addrOperand a + zextByte b).toNat = a.toNat + b.toNat := by
  have hb : (zextByte b).toNat = b.toNat := BitVec.toNat_setWidth_of_le (by decide)
  rw [BitVec.toNat_add, addrOperand_toNat, hb, Nat.mod_eq_of_lt (by omega)]

/-- Settles O17. -/
theorem jumpsSetThePcAlone : Obligations.JumpsSetThePcAlone := by
  intro a s
  have hkeeps (w : Word) : KeepsAllBut [.pc] s (s.setPc w) := (KeepsAllBut.refl _ s).setPc (by simp) w
  exact ⟨⟨_, rfl, addrOperand_toNat a, hkeeps _⟩, ⟨_, rfl, addrOperand_add_zextByte_toNat a _, hkeeps _⟩⟩

/-! ### Skips (R104 to R107) -/

theorem State.skipIf_pc_add (s : State) (c : Bool) : (s.skipIf c).pc = s.pc + (if c then 4 else 2) := by
  cases c <;> rfl

/-- A skip where two bytes are equal (R104, R106). -/
theorem State.skipIf_beq_spec (s : State) (a b : Byte) :
    (s.skipIf (a == b)).pc = s.pc + (if a.toNat = b.toNat then 4 else 2) ∧ KeepsAllBut [.pc] s (s.skipIf (a == b)) := by
  refine ⟨?_, (KeepsAllBut.refl _ s).skipIf (by simp) _⟩
  simp only [skipIf_pc_add, beq_iff_eq, BitVec.toNat_inj]

/-- A skip where two bytes differ (R105, R107). -/
theorem State.skipIf_bne_spec (s : State) (a b : Byte) :
    (s.skipIf (a != b)).pc = s.pc + (if a.toNat = b.toNat then 2 else 4) ∧ KeepsAllBut [.pc] s (s.skipIf (a != b)) := by
  refine ⟨?_, (KeepsAllBut.refl _ s).skipIf (by simp) _⟩
  simp only [skipIf_pc_add, bne_iff_ne, ne_eq, ite_not, BitVec.toNat_inj]

/-- Settles O21. -/
theorem skipsAddFourOrTwo : Obligations.SkipsAddFourOrTwo := fun _ _ _ _ s =>
  ⟨⟨_, rfl, s.skipIf_beq_spec _ _⟩, ⟨_, rfl, s.skipIf_bne_spec _ _⟩, ⟨_, rfl, s.skipIf_beq_spec _ _⟩,
    ⟨_, rfl, s.skipIf_bne_spec _ _⟩⟩

end Sys2Proof.Machine
end

section
/-! SUPPORT. Register writes with and without a flag: loads, arithmetic, logic and shifts (41_alu.md R120 to R131). -/

namespace Sys2Proof.Machine

/-! ### A register write without a flag (R121 to R126) -/

theorem writesRegister_of_exec {i : Instr} {s : State} {x : Nibble} {b : Byte} {n : Nat}
    (h : exec i s = .next (s.writeV x b).advancePc) (hb : b.toNat = n) : WritesRegister i s x n := by
  refine ⟨_, h, ?_, fun r hr => ?_, rfl, ((KeepsAllBut.refl _ s).withV (by simp) _).advancePc (by simp)⟩
  · rw [State.readV_advancePc, State.readV_writeV, if_pos rfl, hb]
  · rw [State.readV_advancePc, State.readV_writeV, if_neg hr]

/-- Settles O22. -/
theorem registerWritesWithoutAFlag : Obligations.RegisterWritesWithoutAFlag := fun _ _ _ _ =>
  ⟨writesRegister_of_exec rfl rfl, writesRegister_of_exec rfl (BitVec.toNat_add _ _), writesRegister_of_exec rfl rfl,
    writesRegister_of_exec rfl (BitVec.toNat_or _ _), writesRegister_of_exec rfl (BitVec.toNat_and _ _),
    writesRegister_of_exec rfl (BitVec.toNat_xor _ _)⟩

/-! ### A result and its flag (R120, R127, R128, R130) -/

/-- A flag given as a number says whether its condition holds. -/
theorem flag_of_eq_ofNat {b : Byte} {n : Nat} {flag : Prop} (hb : b = BitVec.ofNat 8 n) (h1 : flag → n = 1)
    (h0 : ¬ flag → n = 0) : (flag ∧ b = 1) ∨ (¬ flag ∧ b = 0) := by
  by_cases hflag : flag
  · exact .inl ⟨hflag, by rw [hb, h1 hflag]; rfl⟩
  · exact .inr ⟨hflag, by rw [hb, h0 hflag]; rfl⟩

/-- The flag is written last, so it is what VF ends with also where x is 0xF (R120). -/
theorem writesRegisterAndFlag_of_exec {i : Instr} {s : State} {x : Nibble} {b : Byte} {n : Nat} {flag : Prop}
    [Decidable flag] (h : exec i s = .next (s.writeFlagged x b (decide flag)).advancePc) (hb : b.toNat = n) :
    WritesRegisterAndFlag i s x n flag := by
  refine ⟨_, h, fun hx => ?_, ?_, fun r hrx hrf => State.readV_writeFlagged_other s hrx hrf _ _, rfl,
    ((KeepsAllBut.refl _ s).writeFlagged (by simp) _ _ _).advancePc (by simp)⟩
  · rw [State.readV_advancePc, State.readV_writeFlagged_result s hx, hb]
  · have hvf := State.readV_writeFlagged_flag s x b (decide flag)
    exact flag_of_eq_ofNat (hvf.trans (flagByte_eq_ofNat _)) (by simp +contextual) (by simp +contextual)

/-- Settles O23. -/
theorem addSetsTheCarry : Obligations.AddSetsTheCarry := fun _ _ _ =>
  writesRegisterAndFlag_of_exec rfl (BitVec.toNat_add _ _)

/-- The difference of two bytes modulo 256, with the borrow added before anything is taken away (R128, R130). -/
theorem byte_sub_toNat (a b : Byte) : (a - b).toNat = (a.toNat + 256 - b.toNat) % 256 := by
  rw [BitVec.toNat_sub]
  omega

/-- Settles O24. -/
theorem subtractionsSetNotBorrow : Obligations.SubtractionsSetNotBorrow := fun _ _ _ =>
  ⟨writesRegisterAndFlag_of_exec rfl (byte_sub_toNat _ _), writesRegisterAndFlag_of_exec rfl (byte_sub_toNat _ _)⟩

/-! ### Shifts of V[x] (R129, R131) -/

/-- Settles O25: the shifts at SHIFT_USES_VY = false, with the bit shifted out read as a condition. -/
theorem shiftsSetTheBitShiftedOut : Obligations.ShiftsSetTheBitShiftedOut := by
  intro x y s
  constructor
  · obtain ⟨t, ht, hflag, hresult, hrest⟩ := execShrWith_spec false x y s
    exact ⟨t, ht, hresult, flag_of_eq_ofNat hflag id (by simp), hrest⟩
  · obtain ⟨t, ht, hflag, hresult, hrest⟩ := execShlWith_spec false x y s
    have hvf : t.readV 0xF = BitVec.ofNat 8 ((s.readV x).toNat / 128) := hflag
    exact ⟨t, ht, hresult, flag_of_eq_ofNat hvf (by omega) (by omega), hrest⟩

end Sys2Proof.Machine
end

section
/-! SUPPORT. The instructions that write I alone (42_index_memory.md R141 to R143). -/

namespace Sys2Proof.Machine

theorem zextByte_toNat (b : Byte) : (zextByte b).toNat = b.toNat :=
  BitVec.toNat_setWidth_of_le (by decide)

/-- An instruction that only sets I and goes on to the next one leaves all else as before, VF among it. -/
theorem writesIndex_of_exec {i : Instr} {s : State} {w : Word} {n : Nat} (h : exec i s = .next (s.setI w).advancePc)
    (hw : w.toNat = n) : ∃ t, exec i s = .next t ∧ t.i.toNat = n ∧ t.pc = s.pc + 2 ∧ KeepsAllBut [.i, .pc] s t :=
  ⟨_, h, hw, rfl, ((KeepsAllBut.refl _ s).withI (by simp) w).advancePc (by simp)⟩

/-- The sum of I and a register wraps at 16 bits and sets no flag (R142). -/
theorem add_zextByte_toNat (w : Word) (b : Byte) : (w + zextByte b).toNat = (w.toNat + b.toNat) % 65536 := by
  rw [BitVec.toNat_add, zextByte_toNat]

/-- At FONT_BASE = 0 the glyph's address is at most 75, so it does not wrap (R143). -/
theorem glyphAddress_fontBase_toNat (b : Byte) :
    (glyphAddress Config.params.fontBase b).toNat = 5 * (b.toNat % 16) := by
  have hbase : Config.params.fontBase.toNat = 0 := rfl
  rw [glyphAddress_toNat, hbase]
  omega

/-- Settles O27. -/
theorem indexRegisterWrites : Obligations.IndexRegisterWrites := fun a _ _ =>
  ⟨writesIndex_of_exec rfl (addrOperand_toNat a), writesIndex_of_exec rfl (add_zextByte_toNat _ _),
    writesIndex_of_exec rfl (glyphAddress_fontBase_toNat _)⟩

end Sys2Proof.Machine
end

section
/-! SUPPORT. CLS, and the sprite that DRW draws, once and twice (43_display.md R160 to R164). -/

namespace Sys2Proof.Machine

/-! ### CLS (R161) -/

/-- Settles O35: the frame is that of every instruction. -/
theorem clsClearsEveryPixel : Obligations.ClsClearsEveryPixel := fun g _ =>
  ⟨_, rfl, pixel_blankDisplay, rfl, exec_keeps (i := .cls g) rfl⟩

/-! ### DRW in range (R160, R162, R163) -/

/-- The sprite bit that DXYN draws on a pixel: its bytes are the n from I on, its corner is at (V[x], V[y]). -/
def State.spriteBitAt (s : State) (x y n : Nibble) (r : Fin 32) (c : Fin 64) : Bool :=
  spriteBit (readBlock s.mem s.i.toNat n.toNat) ((s.readV x).toNat % 64) ((s.readV y).toNat % 32) r c

/-- A sprite bit of DXYN falls on a pixel that is set. -/
def State.SpriteCollides (s : State) (x y n : Nibble) : Prop :=
  ∃ r c, pixel s.disp r c = true ∧ s.spriteBitAt x y n r c = true

/-- What the rasterizer makes of the display and of DXYN's sprite. -/
def State.raster (s : State) (x y n : Nibble) : Raster :=
  drawSprite s.disp (s.readV x) (s.readV y) (readBlock s.mem s.i.toNat n.toNat)

/-- The state after DXYN has drawn its sprite. -/
def State.drawn (s : State) (x y n : Nibble) : State :=
  ({ s with disp := (s.raster x y n).disp }.setFlag (s.raster x y n).collide).advancePc

theorem spriteFault_eq_none {i : Word} {n : Nibble} :
    spriteFault i n = none ↔ n.toNat = 0 ∨ i.toNat + (n.toNat - 1) ≤ 0xFFF := by
  unfold spriteFault
  by_cases hn : n.toNat = 0
  · rw [if_neg (by omega)]; exact iff_of_true rfl (.inl hn)
  · rw [if_pos (by omega), rangeFault_eq_none, or_iff_right hn]

theorem exec_drw_inRange {s : State} {n : Nibble} (h : n.toNat = 0 ∨ s.i.toNat + (n.toNat - 1) ≤ 0xFFF)
    (x y : Nibble) : exec (.drw x y n) s = .next (s.drawn x y n) := by
  have heffect : s.checked (spriteFault s.i n) (.drw x y n) (s.drawn x y n) = s.drawn x y n := by
    rw [spriteFault_eq_none.mpr h]; rfl
  exact congrArg Host.Outcome.next heffect

section
variable (s : State) (x y n : Nibble)

/-- A sprite has at most 15 rows, fewer than the display. -/
theorem spriteRows_length_le : (readBlock s.mem s.i.toNat n.toNat).length ≤ 32 := by
  rw [readBlock_length]; omega

theorem pixel_drawn (r : Fin 32) (c : Fin 64) :
    pixel (s.drawn x y n).disp r c = (pixel s.disp r c ^^ s.spriteBitAt x y n r c) :=
  pixel_drawSprite s.disp _ _ _ (spriteRows_length_le s n) r c

theorem collide_raster : (s.raster x y n).collide = true ↔ s.SpriteCollides x y n := by
  rw [State.raster, collide_drawSprite _ _ _ _ (spriteRows_length_le s n)]
  simp only [State.SpriteCollides, State.spriteBitAt, and_comm]

/-- DXYN turns a pixel off exactly where a sprite bit falls on a set pixel. -/
theorem spriteCollides_iff : s.SpriteCollides x y n ↔
    ∃ r c, pixel s.disp r c = true ∧ pixel (s.drawn x y n).disp r c = false := by
  refine exists₂_congr fun r c => and_congr_right fun hset => ?_
  rw [pixel_drawn, hset, Bool.true_xor, Bool.not_eq_false']

/-- VF after DXYN is the collision, also where x or y is 0xF (R162, R163). -/
theorem readV_drawn_flag : s.SpriteCollides x y n ∧ (s.drawn x y n).readV 0xF = 1 ∨
    ¬ s.SpriteCollides x y n ∧ (s.drawn x y n).readV 0xF = 0 := by
  have hvf : (s.drawn x y n).readV 0xF = flagByte (s.raster x y n).collide :=
    (regGet_regSet _ _ _ _).trans (if_pos rfl)
  rw [← collide_raster]
  exact flag_of_eq_ofNat (hvf.trans (flagByte_eq_ofNat _)) (by simp +contextual) (by simp +contextual)

theorem readV_drawn_other {r : Nibble} (hr : r ≠ 0xF) : (s.drawn x y n).readV r = s.readV r :=
  (regGet_regSet _ _ _ _).trans (if_neg hr)

theorem drawn_keeps : KeepsAllBut [.disp, .v, .pc] s (s.drawn x y n) :=
  (((KeepsAllBut.refl _ s).withDisp (by simp) _).withV (by simp) _).advancePc (by simp)

end

/-- Settles O36: no pixel turned off means that every set pixel stays set. -/
theorem drawFlipsTheSpritePixels : Obligations.DrawFlipsTheSpritePixels := by
  intro x y n s hrange
  refine ⟨s.drawn x y n, exec_drw_inRange hrange x y, pixel_drawn s x y n, ?_,
    fun r hr => readV_drawn_other s x y n hr, rfl, drawn_keeps s x y n⟩
  simpa only [spriteCollides_iff, not_exists, not_and, Bool.not_eq_false] using readV_drawn_flag s x y n

/-! ### The same sprite drawn again (R164) -/

/-- DXYN writes neither I nor memory, so at the same coordinates it draws the same sprite again. -/
theorem spriteBitAt_drawn {s : State} {x y n : Nibble} (hx : (s.drawn x y n).readV x = s.readV x)
    (hy : (s.drawn x y n).readV y = s.readV y) : (s.drawn x y n).spriteBitAt x y n = s.spriteBitAt x y n := by
  funext r c
  rw [State.spriteBitAt, hx, hy]; rfl

/-- Settles O37: the same sprite bit flips each pixel twice. -/
theorem drawingTwiceUndoesTheFirst : Obligations.DrawingTwiceUndoesTheFirst := by
  intro x y n s t hrange ht hx hy
  cases (exec_drw_inRange hrange x y).symm.trans ht
  have hbit := spriteBitAt_drawn hx hy
  refine ⟨_, exec_drw_inRange (s := s.drawn x y n) hrange x y, fun r c => ?_, ?_⟩
  · rw [pixel_drawn, hbit, pixel_drawn, Bool.xor_assoc, Bool.xor_self, Bool.xor_false]
  · have hflag := readV_drawn_flag (s.drawn x y n) x y n
    rw [State.SpriteCollides, hbit] at hflag
    obtain ⟨hcollides, hvf⟩ | ⟨hclear, hvf⟩ := hflag <;> rw [hvf]
    · exact iff_of_true rfl hcollides
    · exact iff_of_false (by decide) hclear

end Sys2Proof.Machine
end

section
/-! SUPPORT. Accesses out of bounds, the key skips and key events, and the timers (20_memory.md R52; 42_index_memory.md
R140; 44_keypad_timers.md R170 to R180). -/

namespace Sys2Proof.Machine

/-! ### The two outcomes of a key skip (R170) -/

section
variable {s : State} {x : Nibble}

theorem State.keySkip_of_names_key {k : Nibble} (h : (s.readV x).toNat = k.toNat) (i : Instr) (wanted : Bool) :
    s.keySkip x i wanted = s.skipIf (s.readKey k == wanted) := by
  rw [State.keySkip, keyIndex_eq_some.mpr h]

theorem State.keySkip_of_names_none (h : (s.readV x).toNat > 0xF) (i : Instr) (wanted : Bool) :
    s.keySkip x i wanted = s.raiseFatal .outOfBoundsAccess s.pc (encode i) (BitVec.ofNat 16 (s.readV x).toNat) := by
  have haddr : zextByte (s.readV x) = BitVec.ofNat 16 (s.readV x).toNat :=
    BitVec.eq_of_toNat_eq (by rw [zextByte_toNat, BitVec.toNat_ofNat]; omega)
  rw [State.keySkip, keyIndex_eq_none.mpr h, haddr]

end

/-! ### Accesses out of bounds (R52, R140, R170) -/

/-- The address reported is the greater of the base and 0x1000 (R52). -/
theorem rangeFault_of_exceeds {base : Word} {k : Nat} (h : base.toNat + k > 0xFFF) :
    rangeFault base k = some (if base.toNat > 0x1000 then base else 0x1000) := by
  refine rangeFault_eq_some.mpr ⟨h, ?_⟩
  split
  next hgt => exact (Nat.max_eq_left hgt.le).symm
  next hle => exact (Nat.max_eq_right (Nat.not_lt.mp hle)).symm

theorem State.checked_outOfRange {s : State} {k : Nat} (h : s.i.toNat + k > 0xFFF) (i : Instr) (effect : State) :
    s.checked (rangeFault s.i k) i effect =
      s.raiseFatal .outOfBoundsAccess s.pc (encode i) (if s.i.toNat > 0x1000 then s.i else 0x1000) := by
  rw [rangeFault_of_exceeds h]; rfl

/-- The sprite's bytes are checked as one range where it has any (R162). -/
theorem spriteFault_of_lastOffset {x y n : Nibble} {k : Nat} (h : lastOffset (.drw x y n) = some k) (i : Word) :
    spriteFault i n = rangeFault i k := by
  by_cases hn : n.toNat = 0
  · simp [lastOffset, hn] at h
  · have hk : n.toNat - 1 = k := by simpa [lastOffset, hn] using h
    rw [spriteFault, if_pos (Nat.pos_of_ne_zero hn), hk]

/-- Every instruction that accesses bytes through I checks the whole range first (R52, R140). -/
theorem exec_outOfRange {i : Instr} {k : Nat} {s : State} (hi : lastOffset i = some k) (h : s.i.toNat + k > 0xFFF) :
    exec i s = .next
      (s.raiseFatal .outOfBoundsAccess s.pc (encode i) (if s.i.toNat > 0x1000 then s.i else 0x1000)) := by
  cases i with
  | drw x y n =>
    rw [← State.checked_outOfRange h (.drw x y n) (s.drawn x y n), ← spriteFault_of_lastOffset hi]
    rfl
  | ldBV | ldMemV | ldVMem => cases hi; exact congrArg Host.Outcome.next (State.checked_outOfRange h _ _)
  | _ => cases hi

/-- Settles O32. -/
theorem outOfBoundsHalts : Obligations.OutOfBoundsHalts := by
  refine fun s => ⟨fun i k hf hi hk => ?_, fun x hf hx => ?_⟩
  · rw [step_of_fetches hf, ← hf.encode_eq]
    exact ⟨_, exec_outOfRange hi hk, haltsWith_raiseFatal s _ _ _⟩
  · obtain hf | hf := hf <;> rw [step_of_fetches hf, ← hf.encode_eq]
    · exact ⟨_, congrArg Host.Outcome.next (State.keySkip_of_names_none hx _ true), haltsWith_raiseFatal s _ _ _⟩
    · exact ⟨_, congrArg Host.Outcome.next (State.keySkip_of_names_none hx _ false), haltsWith_raiseFatal s _ _ _⟩

/-! ### SKP and SKNP on a key (R171, R172) -/

/-- Settles O38. -/
theorem keySkipsTestTheLatch : Obligations.KeySkipsTestTheLatch := by
  intro x k s hk
  have hskip (wanted : Bool) : KeepsAllBut [.pc] s (s.skipIf (s.readKey k == wanted)) :=
    (KeepsAllBut.refl _ s).skipIf (by simp) _
  refine ⟨⟨_, congrArg Host.Outcome.next (State.keySkip_of_names_key hk (.skp x) true), ?_, hskip true⟩,
    ⟨_, congrArg Host.Outcome.next (State.keySkip_of_names_key hk (.sknp x) false), ?_, hskip false⟩⟩
  · rw [State.skipIf_pc_add]; cases s.readKey k <;> rfl
  · rw [State.skipIf_pc_add]; cases s.readKey k <;> rfl

/-! ### Key events (R174, R175) -/

/-- The end of a wait leaves the key flags as `key_down` has just written them. -/
theorem readKey_keyDown (k j : Nibble) (s : State) : (keyDown k s).readKey j = if j = k then true else s.readKey j := by
  rw [← State.readKey_writeKey]
  by_cases hm : s.run.mode = .waitKey
  · rw [keyDown_waiting k hm]; rfl
  · rw [keyDown_not_waiting k hm]

theorem State.readV_resume (s : State) (k r : Nibble) :
    (s.resume k).readV r = if r = s.run.waitReg then k.setWidth 8 else s.readV r :=
  s.readV_writeV s.run.waitReg r _

theorem State.resume_keeps (s : State) (k : Nibble) : KeepsAllBut [.v, .pc, .run] s (s.resume k) :=
  (((KeepsAllBut.refl _ s).withV (by simp) _).advancePc (by simp)).withRun (by simp) _

/-- Settles O40, by run mode. -/
theorem keyEventsWriteTheLatchAndEndTheWait : Obligations.KeyEventsWriteTheLatchAndEndTheWait := by
  refine fun k s => ⟨fun j => readKey_keyDown k j s, fun hm => ?_, fun hm => keyDown_keeps hm k,
    fun j => s.readKey_writeKey k j false, writeKey_keeps s k false⟩
  rw [keyDown_waiting k hm]
  have hkeeps : KeepsAllBut [.v, .pc, .key, .run] s ((s.writeKey k true).resume k) :=
    ((writeKey_keeps s k true).mono (by simp)).trans ((State.resume_keeps _ k).mono (by simp))
  exact ⟨fun r => (State.readV_resume _ k r).trans (by rw [BitVec.ofNat_toNat]; rfl), rfl, rfl, hkeeps⟩

/-! ### The timers (R176 to R180) -/

/-- Settles O43: the frames are those of every instruction. -/
theorem timerInstructionsMoveTheTimers : Obligations.TimerInstructionsMoveTheTimers := fun x _ =>
  ⟨writesRegister_of_exec rfl rfl, ⟨_, rfl, rfl, rfl, exec_keeps (i := .ldDtV x) rfl⟩,
    ⟨_, rfl, rfl, rfl, exec_keeps (i := .ldStV x) rfl⟩⟩

theorem beep_iff (s : State) : beep s = true ↔ 0 < s.st.toNat := by
  rw [beep, bne_iff_ne, Nat.pos_iff_ne_zero, ne_eq, ne_eq, ← BitVec.toNat_inj]; rfl

theorem runEvents_timerTicks {k : Nat} {s : State} (hm : s.run.mode ≠ .halted) :
    (runEvents s (List.replicate k .timerTick)).dt.toNat = s.dt.toNat - k ∧
    (runEvents s (List.replicate k .timerTick)).st.toNat = s.st.toNat - k := by
  induction k generalizing s with
  | zero => exact ⟨rfl, rfl⟩
  | succ k ih =>
    obtain ⟨hdt, hst, -⟩ := (timerTickCountsDown s).1 hm
    obtain ⟨hdts, hsts⟩ := ih (s := timerTick s) (by rwa [timerTick_run])
    have hfirst : runEvents s (List.replicate (k + 1) .timerTick) =
        runEvents (timerTick s) (List.replicate k .timerTick) := rfl
    rw [hfirst, hdts, hsts, hdt, hst]
    omega

/-- Settles O45: beep holds while the sound timer, counted down, is above 0. -/
theorem beepLastsSoundTimerTicks : Obligations.BeepLastsSoundTimerTicks := by
  intro k s hm
  obtain ⟨hdt, hst⟩ := runEvents_timerTicks (k := k) hm
  exact ⟨hdt, hst, by rw [beep_iff, hst, Nat.sub_pos_iff_lt]⟩

end Sys2Proof.Machine
end

section
/-! SUPPORT. A step into HALTED is a fatal error raised at PC, and one period of the pacer is one step
(60_exceptions.md R201, R202; 70_reset_and_hazards.md R225 to R227). -/

namespace Sys2Proof.Machine

/-! ### A step that halts (R201, R202) -/

/-- The engine comes to HALTED by a fatal error alone, raised at the PC of the step (R200, R202). -/
theorem stepWith_halts_by_raiseFatal {p : Params} {s t : State} (h : stepWith p s = .next t)
    (hm : s.run.mode ≠ .halted) (ht : t.run.mode = .halted) : ∃ c w a, t = s.raiseFatal c s.pc w a := by
  obtain ⟨-, e⟩ | ⟨-, -, a, -, e⟩ | ⟨-, -, -, e⟩ | ⟨-, -, i, -, e⟩ := stepWith_cases p s <;> rw [e] at h
  · cases h; exact absurd ht hm
  · cases h; exact ⟨_, _, _, rfl⟩
  · cases h; exact ⟨_, _, _, rfl⟩
  · cases execWith_answers h with
    | faults c a => exact ⟨c, _, a, rfl⟩
    | waits x => cases ht
    | goesOn hg => rw [hg.run] at ht; exact absurd ht hm

/-- Settles O11. -/
theorem fatalErrorsArePrecise : Obligations.FatalErrorsArePrecise := by
  intro s t h hm ht
  rw [← stepIsTheParametersOfThisHardware] at h
  obtain ⟨c, w, a, rfl⟩ := stepWith_halts_by_raiseFatal h hm ht
  obtain ⟨-, -, hkeeps⟩ := haltsWith_raiseFatal s c w a
  exact ⟨hkeeps, rfl, rfl⟩

/-! ### The turns of the pacer's loop (R226) -/

theorem advanceWith_of_halted {s : State} (hm : s.run.mode = .halted) (p : Params) (e : Rat) :
    advanceWith p e s = (s, .haltedError s.run.haltCause) := by
  simp only [advanceWith, hm]

theorem advanceWith_of_not_halted {s : State} (hm : s.run.mode ≠ .halted) (p : Params) (e : Rat) :
    advanceWith p e s = pacerLoop p (periodsIn p.stepsPerTimerTick (s.pacer.acc + e)) (s.addAcc e) := by
  cases hmode : s.run.mode with
  | halted => exact absurd hmode hm
  | running | waitKey => simp only [advanceWith, hmode, State.addAcc_acc]

section
variable {p : Params} {s t : State} (hacc : period p.stepsPerTimerTick ≤ s.pacer.acc)
  (ht : stepEventWith p (s.addAcc (-period p.stepsPerTimerTick)) = t)
include hacc ht

/-- A turn whose step halts ends the loop with the error. -/
theorem pacerLoop_succ_of_halts (turns : Nat) (hm : t.run.mode = .halted) :
    pacerLoop p (turns + 1) s = (dropTime t, .haltedError t.run.haltCause) := by
  simp only [pacerLoop, if_pos hacc, ht, hm]

/-- A turn whose step does not halt counts it and goes on. -/
theorem pacerLoop_succ_of_not_halts (turns : Nat) (hm : t.run.mode ≠ .halted) :
    pacerLoop p (turns + 1) s = pacerLoop p turns (countStep p.stepsPerTimerTick t) := by
  cases hmode : t.run.mode with
  | halted => exact absurd hmode hm
  | running | waitKey => simp only [pacerLoop, if_pos hacc, ht, hmode]

end

theorem periodsIn_period {n : Nat} (hn : n ≥ 1) : periodsIn n (period n) = 1 := by
  rw [periodsIn, div_self (period_pos hn).ne']; rfl

/-- A turn consumes its period before it steps, so a turn for one added period steps from `s` itself (R226). -/
theorem State.addAcc_addAcc_neg (s : State) (d : Rat) : (s.addAcc d).addAcc (-d) = s := by
  simp [State.addAcc]

theorem dropTime_of_acc_eq_zero {s : State} (h : s.pacer.acc = 0) : dropTime s = s := by
  rw [dropTime, ← h]

/-- Settles O49: ACC holds one period, so the loop makes one turn, and its step starts from `s`. -/
theorem onePeriodIsOneStepThenItsTick : Obligations.OnePeriodIsOneStepThenItsTick := by
  refine fun p s => ⟨fun t hn hm hacc h => ?_, fun e hm => advanceWith_of_halted hm p e⟩
  have hturns : advanceWith p (period p.stepsPerTimerTick) s =
      pacerLoop p (0 + 1) (s.addAcc (period p.stepsPerTimerTick)) := by
    rw [advanceWith_of_not_halted hm, hacc, zero_add, periodsIn_period hn]
  have hperiod : period p.stepsPerTimerTick ≤ (s.addAcc (period p.stepsPerTimerTick)).pacer.acc := by
    rw [State.addAcc_acc, hacc, zero_add]
  have hstep : stepEventWith p ((s.addAcc (period p.stepsPerTimerTick)).addAcc (-period p.stepsPerTimerTick)) = t := by
    rw [State.addAcc_addAcc_neg, stepEventWith_of_next h]
  have hpacer : t.pacer = s.pacer := by rw [← stepEventWith_of_next h, stepEventWith_pacer]
  refine ⟨fun ht => ?_, fun ht => ?_⟩
  · rw [hturns, pacerLoop_succ_of_not_halts hperiod hstep 0 ht, pacerLoop]
    simp only [countStep, hpacer, hacc]
  · rw [hturns, pacerLoop_succ_of_halts hperiod hstep 0 ht, dropTime_of_acc_eq_zero (by rw [hpacer, hacc])]

end Sys2Proof.Machine
end

section
/-! SUPPORT. Reset: its state and the invariant it meets at any parameters, and a step with no program loaded
(70_reset_and_hazards.md R220, R224). -/

namespace Sys2Proof.Machine

/-! ### Memory at reset (R29, R220) -/

/-- A read after a block write: inside the block its byte, outside it the byte that was there. -/
theorem memRead_writeBlock (bytes : List Byte) {m : Memory} (hm : Memory.wf m = true) {base : Nat}
    (hfits : base + bytes.length ≤ memSize) (a : Nat) :
    memRead (writeBlock m base bytes) a =
      if base ≤ a ∧ a < base + bytes.length then bytes.getD (a - base) 0 else memRead m a := by
  split
  · rename_i ha
    obtain ⟨k, rfl⟩ := Nat.exists_eq_add_of_le ha.1
    have hk : k < bytes.length := by omega
    rw [memRead_writeBlock_inside bytes hm hfits hk, Nat.add_sub_cancel_left, List.getD_eq_getElem _ _ hk]
  · exact memRead_writeBlock_outside bytes m (by omega)

/-- Memory with the bytes of the default font cleared. -/
def clearedMemory : Memory :=
  writeBlock [] Config.params.fontBase.toNat (List.replicate Config.fontImage.length 0)

theorem clearedMemory_fits :
    Config.params.fontBase.toNat + (List.replicate Config.fontImage.length (0 : Byte)).length ≤ memSize := by decide

theorem clearedMemory_wf : Memory.wf clearedMemory = true :=
  writeBlock_wf _ wf_nil clearedMemory_fits

theorem memRead_clearedMemory (a : Nat) : memRead clearedMemory a = 0 := by
  rw [clearedMemory, memRead_writeBlock _ wf_nil clearedMemory_fits]
  split
  · simp
  · rename_i ha
    have hout : Config.fontImage.length ≤ a := by simpa [Config.params] using ha
    exact (readMem_reset a).trans (List.getD_eq_default _ _ hout)

theorem resetMemoryWith_eq (base : Nat) (image : List Byte) :
    resetMemoryWith base image = writeBlock clearedMemory base image := rfl

theorem resetMemoryWith_wf {base : Nat} {image : List Byte} (hfits : base + image.length ≤ memSize) :
    Memory.wf (resetMemoryWith base image) = true :=
  writeBlock_wf image clearedMemory_wf hfits

theorem memRead_resetMemoryWith {base : Nat} {image : List Byte} (hfits : base + image.length ≤ memSize) (a : Nat) :
    memRead (resetMemoryWith base image) a = if base ≤ a then image.getD (a - base) 0 else 0 := by
  rw [resetMemoryWith_eq, memRead_writeBlock image clearedMemory_wf hfits, memRead_clearedMemory]
  by_cases hbase : base ≤ a
  · by_cases hin : a < base + image.length
    · rw [if_pos ⟨hbase, hin⟩, if_pos hbase]
    · rw [if_neg (fun h => hin h.2), if_pos hbase, List.getD_eq_default _ _ (by omega)]
  · rw [if_neg (fun h => hbase h.1), if_neg hbase]

/-! ### The state and the invariant at reset (R220) -/

theorem resetWith_keeps (p : Params) : KeepsAllBut [.stack, .mem] State.reset (State.resetWith p) := by
  have hkeeps := (KeepsAllBut.refl [.sp, .stack, .mem] State.reset).withStack (by simp) (by simp)
    (List.replicate p.stackDepth 0) State.reset.sp
  exact (hkeeps.withMem (by simp) (resetMemoryWith p.fontBase.toNat p.fontImage)).restore rfl

/-- Settles O46. -/
theorem resetState : Obligations.ResetState := by
  refine ⟨fun r => ?_, rfl, rfl, rfl, rfl, rfl, rfl, readMem_reset, fun r c => ?_, fun k => ?_, rfl, rfl, rfl, rfl,
    fun p hfits => ⟨rfl, memRead_resetMemoryWith hfits, resetWith_keeps p⟩⟩
  · simp [State.readV, regGet, State.reset]
  · simp [pixel, State.reset]
  · simp [State.readKey, State.reset]

/-- Reset with any memory in canonical form meets the invariant at a stack of STACK_DEPTH empty slots. -/
theorem reset_invIn (p : Params) {m : Memory} (hm : Memory.wf m = true) :
    ({ State.reset with stack := List.replicate p.stackDepth 0, mem := m } : State).InvIn p := by
  have hrun : State.reset.RunOk := by decide
  have hpc : State.reset.pc.toNat ≤ 0x10FE := by decide
  refine ⟨hm, ⟨List.length_replicate, Nat.zero_le _⟩, hrun, hpc, nofun, fun j hj => ?_⟩
  rw [List.length_replicate] at hj
  simp [State.slot, hj]

/-- Settles O57: both reset states are reset with a memory in canonical form. -/
theorem resetMeetsTheInvariant : Obligations.ResetMeetsTheInvariant :=
  ⟨reset_invIn Config.params wf_nil, fun p hfits => reset_invIn p (resetMemoryWith_wf hfits)⟩

/-! ### A step with no program loaded (R224) -/

/-- A key moved by the host: down or up. -/
def moveKey (s : State) (k : Nibble × Bool) : State := if k.2 then keyDown k.1 s else keyUp k.1 s

theorem moveKey_keeps {s : State} (hm : s.run.mode ≠ .waitKey) (k : Nibble × Bool) :
    KeepsAllBut [.key] s (moveKey s k) := by
  unfold moveKey
  split
  · exact keyDown_keeps hm k.1
  · exact writeKey_keeps s k.1 false

theorem foldl_moveKey_keeps (keys : List (Nibble × Bool)) {s : State} (hm : s.run.mode ≠ .waitKey) :
    KeepsAllBut [.key] s (keys.foldl moveKey s) := by
  induction keys generalizing s with
  | nil => exact .refl _ s
  | cons k rest ih =>
    have hkeeps := moveKey_keeps hm k
    have hrun : (moveKey s k).run = s.run := hkeeps .run (by simp)
    exact hkeeps.trans (ih (by rwa [hrun]))

/-- Settles O10: key events leave the word at 0x200, which reset leaves 0, an unknown word. -/
theorem stepWithoutALoadHalts : Obligations.StepWithoutALoadHalts := by
  intro keys
  have hkeeps := foldl_moveKey_keeps keys (s := State.reset) nofun
  have hrun : (keys.foldl moveKey State.reset).run = State.reset.run := hkeeps .run (by simp)
  have hpc : (keys.foldl moveKey State.reset).pc = 0x200 := hkeeps .pc (by simp)
  have hword : (keys.foldl moveKey State.reset).fetchWord = 0 := hkeeps.fetchWord_eq (by simp) (by simp)
  have hunknown := (fetchAndDispatchFaultsHalt _ (congrArg Run.mode hrun)).2
    (by rw [hpc]; decide) (by rw [hword]; decide)
  obtain ⟨t, ht, htrun, hinfo, -⟩ := hunknown
  exact ⟨t, ht, htrun, by rw [hinfo, hpc, hword]⟩

end Sys2Proof.Machine
end

section
/-! SUPPORT. The exact time of the pacer: time added before a step is there after it, and two calls of advance make the
turns of one call (10_state.md R34, 70_reset_and_hazards.md R225, R226). -/

namespace Sys2Proof.Machine

/-! ### Added time and the step (R41, R226) -/

section
variable (s : State) (d : Rat)

theorem State.checked_addAcc (fault : Option Word) (i : Instr) {t u : State} (h : u = t.addAcc d) :
    (s.addAcc d).checked fault i u = (s.checked fault i t).addAcc d := by
  cases fault with
  | some a => rfl
  | none => exact h

theorem State.keySkip_addAcc (x : Nibble) (i : Instr) (wanted : Bool) :
    (s.addAcc d).keySkip x i wanted = (s.keySkip x i wanted).addAcc d := by
  have hread : (s.addAcc d).readV x = s.readV x := rfl
  rw [State.keySkip, State.keySkip, hread]
  cases keyIndex (s.readV x) with
  | none => rfl
  | some k => rfl

theorem execRet_addAcc (g : Nibble) : ∃ u, execRet g s = .next u ∧ execRet g (s.addAcc d) = .next (u.addAcc d) := by
  refine ⟨_, rfl, congrArg Host.Outcome.next ?_⟩
  cases hsp : s.sp with
  | zero => rw [State.pop_of_sp_eq_zero hsp, State.pop_of_sp_eq_zero (s := s.addAcc d) hsp]; rfl
  | succ n => rw [State.pop_of_sp_eq_succ hsp, State.pop_of_sp_eq_succ (s := s.addAcc d) hsp]; rfl

theorem execCallWith_addAcc (depth : Nat) (a : Addr) :
    ∃ u, execCallWith depth a s = .next u ∧ execCallWith depth a (s.addAcc d) = .next (u.addAcc d) := by
  refine ⟨_, rfl, congrArg Host.Outcome.next ?_⟩
  have hsp : (s.addAcc d).sp = s.sp := rfl
  by_cases h : s.sp = depth
  · rw [State.push, State.push, hsp, if_pos h, if_pos h]; rfl
  · rw [State.push, State.push, hsp, if_neg h, if_neg h]; rfl

/-- No instruction reads ACC: time added before it is there after it (R34). -/
theorem execWith_addAcc (p : Params) (i : Instr) :
    ∃ u, execWith p i s = .next u ∧ execWith p i (s.addAcc d) = .next (u.addAcc d) := by
  cases i with
  | ret g => exact execRet_addAcc s d g
  | call a => exact execCallWith_addAcc s d p.stackDepth a
  | skp x | sknp x => exact ⟨_, rfl, congrArg Host.Outcome.next (State.keySkip_addAcc s d x _ _)⟩
  | drw | ldBV | ldMemV | ldVMem => exact ⟨_, rfl, congrArg Host.Outcome.next (State.checked_addAcc s d _ _ rfl)⟩
  | _ => exact ⟨_, rfl, rfl⟩

theorem stepEventWith_addAcc (p : Params) : stepEventWith p (s.addAcc d) = (stepEventWith p s).addAcc d := by
  obtain ⟨hm, e⟩ | ⟨hm, hf, -⟩ | ⟨hm, hf, hd, e⟩ | ⟨hm, hf, i, hd, e⟩ := stepWith_cases p s
  · rw [stepEventWith_of_not_running p hm, stepEventWith_of_not_running (s := s.addAcc d) p hm]
  · rw [stepEventWith_of_next (stepWith_of_fetchFault p hm hf),
      stepEventWith_of_next (stepWith_of_fetchFault (s := s.addAcc d) p hm hf)]
    rfl
  · rw [stepEventWith_of_next e, stepEventWith_of_next (stepWith_of_unknownOpcode (s := s.addAcc d) hm hf hd)]
    rfl
  · obtain ⟨u, hu, hu'⟩ := execWith_addAcc s d p i
    rw [stepEventWith_of_next (e.trans hu),
      stepEventWith_of_next ((stepWith_of_decodes (s := s.addAcc d) hm hf hd).trans hu')]

theorem timerTick_addAcc : timerTick (s.addAcc d) = (timerTick s).addAcc d := by
  by_cases hm : s.run.mode = .halted
  · rw [timerTick_halted hm, timerTick_halted (s := s.addAcc d) hm]
  · rw [timerTick_counting hm, timerTick_counting (s := s.addAcc d) hm]; rfl

theorem countStep_addAcc (n : Nat) : countStep n (s.addAcc d) = (countStep n s).addAcc d := by
  have hcount : (s.addAcc d).pacer.stepCount = s.pacer.stepCount := rfl
  by_cases h : s.pacer.stepCount + 1 = n
  · rw [countStep, countStep, hcount, if_pos h, if_pos h, ← timerTick_addAcc]; rfl
  · rw [countStep, countStep, hcount, if_neg h, if_neg h]; rfl

theorem State.addAcc_addAcc (e : Rat) : (s.addAcc d).addAcc e = s.addAcc (d + e) := by
  simp [State.addAcc, add_assoc]

theorem State.addAcc_comm (e : Rat) : (s.addAcc d).addAcc e = (s.addAcc e).addAcc d := by
  rw [State.addAcc_addAcc, State.addAcc_addAcc, add_comm]

end

/-! ### The turns of a call (R226) -/

/-- `Turns p m s u`: from `s` the pacer's loop makes `m` turns, none of which halts, and comes to `u`. -/
inductive Turns (p : Params) : Nat → State → State → Prop where
  | zero (s : State) : Turns p 0 s s
  | succ {m : Nat} {s u : State} (hacc : period p.stepsPerTimerTick ≤ s.pacer.acc)
      (hm : (stepEventWith p (s.addAcc (-period p.stepsPerTimerTick))).run.mode ≠ .halted)
      (hrest : Turns p m (countStep p.stepsPerTimerTick (stepEventWith p (s.addAcc (-period p.stepsPerTimerTick)))) u) :
      Turns p (m + 1) s u

section
variable {p : Params} {m : Nat} {s u : State}

/-- The loop, given `m` turns more, goes on where these turns have come to. -/
theorem Turns.pacerLoop_add (h : Turns p m s u) (k : Nat) : pacerLoop p (m + k) s = pacerLoop p k u := by
  induction h with
  | zero s => rw [Nat.zero_add]
  | succ hacc hm _ ih => rw [Nat.add_right_comm, pacerLoop_succ_of_not_halts hacc rfl _ hm, ih]

/-- Time added at the start is still there after the turns, which are the same. -/
theorem Turns.addAcc (h : Turns p m s u) {e : Rat} (he : 0 ≤ e) : Turns p m (s.addAcc e) (u.addAcc e) := by
  induction h with
  | zero s => exact .zero _
  | @succ m s u hacc hm _ ih =>
    have hstep : stepEventWith p ((s.addAcc e).addAcc (-period p.stepsPerTimerTick)) =
        (stepEventWith p (s.addAcc (-period p.stepsPerTimerTick))).addAcc e := by
      rw [State.addAcc_comm, stepEventWith_addAcc]
    refine .succ (by rw [State.addAcc_acc]; linarith) (by rwa [hstep]) ?_
    rwa [hstep, countStep_addAcc]

theorem Turns.acc_eq (h : Turns p m s u) : s.pacer.acc = m * period p.stepsPerTimerTick + u.pacer.acc := by
  induction h with
  | zero s => simp
  | succ hacc hm _ ih =>
    rw [countStep_acc, stepEventWith_pacer, State.addAcc_acc] at ih
    push_cast
    linarith

theorem Turns.not_halted (h : Turns p m s u) (hs : s.run.mode ≠ .halted) : u.run.mode ≠ .halted := by
  induction h with
  | zero s => exact hs
  | succ hacc hm _ ih => exact ih (by rwa [countStep_run])

/-- A loop that ACC lets make all its turns has made them where it answers ok. -/
theorem turns_of_pacerLoop_ok (hacc : m * period p.stepsPerTimerTick ≤ s.pacer.acc)
    (hper : 0 ≤ period p.stepsPerTimerTick) (hok : (pacerLoop p m s).2 = .ok) : Turns p m s (pacerLoop p m s).1 := by
  induction m generalizing s with
  | zero => exact .zero s
  | succ m ih =>
    push_cast at hacc
    have hrest : 0 ≤ m * period p.stepsPerTimerTick := mul_nonneg m.cast_nonneg hper
    have hfirst : period p.stepsPerTimerTick ≤ s.pacer.acc := by linarith
    by_cases hm : (stepEventWith p (s.addAcc (-period p.stepsPerTimerTick))).run.mode = .halted
    · rw [pacerLoop_succ_of_halts hfirst rfl m hm] at hok; cases hok
    · rw [pacerLoop_succ_of_not_halts hfirst rfl m hm] at hok ⊢
      refine .succ hfirst hm (ih ?_ hok)
      rw [countStep_acc, stepEventWith_pacer, State.addAcc_acc]
      linarith

end

/-! ### Whole periods of a sum (R226) -/

theorem periodsIn_eq_floor (n : Nat) (a : Rat) : periodsIn n a = ⌊a / period n⌋₊ := rfl

section
variable {n : Nat} (hn : n ≥ 1) {a : Rat} (ha : 0 ≤ a)
include hn ha

theorem periodsIn_mul_period_le : periodsIn n a * period n ≤ a := by
  have hper := period_pos hn
  rw [← le_div_iff₀ hper, periodsIn_eq_floor]
  exact Nat.floor_le (by positivity)

theorem periodsIn_mul_period_add (m : Nat) : periodsIn n (m * period n + a) = m + periodsIn n a := by
  have hper := period_pos hn
  have hsum : (m * period n + a) / period n = a / period n + m := by field_simp; ring
  rw [periodsIn_eq_floor, hsum, Nat.floor_add_natCast (by positivity), add_comm, periodsIn_eq_floor]

end

/-- Where the turns for `d` have come to, an advance by `e` does what is left of an advance by `d + e`. -/
theorem Turns.advanceWith_add {p : Params} {m : Nat} {d e : Rat} {s u : State} (h : Turns p m (s.addAcc d) u)
    (hn : p.stepsPerTimerTick ≥ 1) (he : 0 ≤ e) (hm : s.run.mode ≠ .halted) (hu : 0 ≤ u.pacer.acc) :
    advanceWith p (d + e) s = advanceWith p e u := by
  have hacc : s.pacer.acc + (d + e) = m * period p.stepsPerTimerTick + (u.pacer.acc + e) := by
    rw [← add_assoc, ← add_assoc, ← h.acc_eq, State.addAcc_acc]
  have hcount : periodsIn p.stepsPerTimerTick (s.pacer.acc + (d + e)) =
      m + periodsIn p.stepsPerTimerTick (u.pacer.acc + e) := by
    rw [hacc, periodsIn_mul_period_add hn (add_nonneg hu he)]
  calc advanceWith p (d + e) s
      = pacerLoop p (m + periodsIn p.stepsPerTimerTick (u.pacer.acc + e)) ((s.addAcc d).addAcc e) := by
        rw [advanceWith_of_not_halted hm, hcount, State.addAcc_addAcc]
    _ = pacerLoop p (periodsIn p.stepsPerTimerTick (u.pacer.acc + e)) (u.addAcc e) :=
        (h.addAcc he).pacerLoop_add _
    _ = advanceWith p e u := (advanceWith_of_not_halted (h.not_halted hm) p e).symm

/-- Settles O51: an advance that answers ok has made a turn for each whole period, and these are the first turns of the
one call. -/
theorem advanceAddsUp : Obligations.AdvanceAddsUp := by
  intro p d e s hn hd he hs hok
  obtain ⟨hacc, -, -⟩ := hs
  have hm : s.run.mode ≠ .halted := fun hm => by rw [advanceWith_of_halted hm] at hok; cases hok
  rw [advanceWith_of_not_halted hm p d] at hok ⊢
  have hfull := periodsIn_mul_period_le hn (add_nonneg hacc hd)
  have hturns := turns_of_pacerLoop_ok (s := s.addAcc d) hfull (period_pos hn).le hok
  refine hturns.advanceWith_add hn he hm ?_
  have hleft := hturns.acc_eq
  rw [State.addAcc_acc] at hleft
  linarith

end Sys2Proof.Machine
end
